-- ==== Sys2Proof/Word.lean ====
section
/-! DEFINITION. The word types of the BNC and the five widths a command can name
(spec/10_state.md R20, spec/30_encoding.md R91). -/

namespace Sys2Proof

/-- A byte of IBUF or OBUF (R61: "A byte is 8 bits"). -/
abbrev Byte := BitVec 8

/-- A 32-bit register or command word (R20, R90). -/
abbrev Word := BitVec 32

/-- A 64-bit register: OPND or RES (R20). -/
abbrev DWord := BitVec 64

/-- The width a command names: its one operand (R91, R94). -/
inductive Width
  | w8
  | w16
  | w32
  | w64
  | word
  deriving DecidableEq, Repr

/-- `W`, the width in bits (R91; the word-sized type is 64 bits wide, 90_conflicts.md C5). -/
@[reducible] def Width.bits : Width → Nat
  | .w8 => 8
  | .w16 => 16
  | .w32 => 32
  | .w64 => 64
  | .word => 64

end Sys2Proof
end

