-- ==== Sys2Proof/Syntax.lean ====
section
/-! DEFINITION. The 14 commands of the BNC (spec/30_encoding.md R94), one constructor per row of
spec/opcode_table.json. The only operand a command word holds is its width (R92). -/

namespace Sys2Proof

/-- The commands, in the order of the opcode table. -/
inductive Instr
  | parseUChk (w : Width)
  | parseUWrap (w : Width)
  | parseSChk (w : Width)
  | parseSWrap (w : Width)
  | vparseUChk (w : Width)
  | vparseUWrap (w : Width)
  | vparseSChk (w : Width)
  | vparseSWrap (w : Width)
  | dcntU (w : Width)
  | dcntS (w : Width)
  | fmtU (w : Width)
  | fmtS (w : Width)
  | fmtaU (w : Width)
  | fmtaS (w : Width)
  deriving DecidableEq, Repr

end Sys2Proof
end

