-- ==== Sys2Proof/WellFormed.lean ====
section
/-! DEFINITION. Which commands a block offers: every command of R94, but the four of the vector
engine only where CAP.HAS_VEC = 1 (spec/44_vector_parse.md R230). The other checks of R96 are on
bits that a term of `Instr` cannot hold. -/

namespace Sys2Proof

/-- The command runs on the vector engine: its word has ENG = 1 (R94). -/
def Instr.needsVec : Instr → Bool
  | .vparseUChk _ | .vparseUWrap _ | .vparseSChk _ | .vparseSWrap _ => true
  | .parseUChk _ | .parseUWrap _ | .parseSChk _ | .parseSWrap _ => false
  | .dcntU _ | .dcntS _ | .fmtU _ | .fmtS _ | .fmtaU _ | .fmtaS _ => false

/-- The command is one of the block's, `hasVec` being CAP.HAS_VEC (R96, R230). -/
def Instr.wellFormed (hasVec : Bool) (i : Instr) : Bool :=
  hasVec || !i.needsVec

end Sys2Proof
end

