-- ==== Sys2Proof/Decode.lean ====
section
/-! DEFINITION. The command word: its fields, the total decoder, and the encoder
(spec/30_encoding.md R90, R91, R94 to R97). -/

namespace Sys2Proof

/-- Why a word is illegal: the rows of R97, each by name. -/
inductive DecodeReject
  /-- A bit of 31:10 is set. -/
  | reservedBits
  /-- OP is 0 or 5 to 15. -/
  | noSuchOperation
  /-- WSEL is 5, 6 or 7. -/
  | noSuchWidth
  /-- POL = 1 and the operation is no parse. -/
  | policyOutsideParse
  /-- ENG = 1 and the operation is no parse. -/
  | engineOutsideParse
  /-- ENG = 1 and CAP.HAS_VEC = 0. -/
  | vectorEngineAbsent
  deriving DecidableEq, Repr

/-- OP, bits 3:0 (R90). -/
def fieldOp (c : Word) : Nat := (c.extractLsb' 0 4).toNat
/-- WSEL, bits 6:4 (R90). -/
def fieldWsel (c : Word) : Nat := (c.extractLsb' 4 3).toNat
/-- SGN, bit 7 (R90). -/
def fieldSgn (c : Word) : Bool := c.getLsbD 7
/-- POL, bit 8 (R90). -/
def fieldPol (c : Word) : Bool := c.getLsbD 8
/-- ENG, bit 9 (R90). -/
def fieldEng (c : Word) : Bool := c.getLsbD 9
/-- RSV, bits 31:10 (R90). -/
def fieldRsv (c : Word) : Nat := (c.extractLsb' 10 22).toNat

/-- The width that WSEL names (R91). -/
def decodeWidth : Nat → Option Width
  | 0 => some .w8
  | 1 => some .w16
  | 2 => some .w32
  | 3 => some .w64
  | 4 => some .word
  | _ => none

/-- A parse by its SGN, POL and ENG (R94, the rows with OP = 1). -/
def decodeParse (sgn pol eng : Bool) (w : Width) : Instr :=
  match eng, sgn, pol with
  | false, false, false => .parseUChk w
  | false, false, true => .parseUWrap w
  | false, true, false => .parseSChk w
  | false, true, true => .parseSWrap w
  | true, false, false => .vparseUChk w
  | true, false, true => .vparseUWrap w
  | true, true, false => .vparseSChk w
  | true, true, true => .vparseSWrap w

/-- The row of R94 for a legal (OP, SGN, POL, ENG); `none` where OP names no operation. -/
def decodeOp (op : Nat) (sgn pol eng : Bool) (w : Width) : Option Instr :=
  match op, sgn with
  | 1, _ => some (decodeParse sgn pol eng w)
  | 2, false => some (.dcntU w)
  | 2, true => some (.dcntS w)
  | 3, false => some (.fmtU w)
  | 3, true => some (.fmtS w)
  | 4, false => some (.fmtaU w)
  | 4, true => some (.fmtaS w)
  | _, _ => none

/-- The decoder of R96, total on every 32-bit word: the command, or the first row of R97 that makes
the word illegal. `hasVec` is CAP.HAS_VEC. -/
def decode (hasVec : Bool) (c : Word) : Except DecodeReject Instr :=
  if fieldRsv c ≠ 0 then .error .reservedBits
  else match decodeWidth (fieldWsel c) with
    | none => if 1 ≤ fieldOp c ∧ fieldOp c ≤ 4 then .error .noSuchWidth else .error .noSuchOperation
    | some w =>
      match decodeOp (fieldOp c) (fieldSgn c) (fieldPol c) (fieldEng c) w with
      | none => .error .noSuchOperation
      | some i =>
        if fieldOp c ≠ 1 ∧ fieldPol c then .error .policyOutsideParse
        else if fieldOp c ≠ 1 ∧ fieldEng c then .error .engineOutsideParse
        else if fieldEng c ∧ !hasVec then .error .vectorEngineAbsent
        else .ok i

/-- WSEL of a width (R91). -/
def Width.wsel : Width → Nat
  | .w8 => 0
  | .w16 => 1
  | .w32 => 2
  | .w64 => 3
  | .word => 4

/-- The word of R95: OP + 16 WSEL + 128 SGN + 256 POL + 512 ENG. -/
def commandWord (op : Nat) (w : Width) (sgn pol eng : Nat) : Word :=
  BitVec.ofNat 32 (op + 16 * w.wsel + 128 * sgn + 256 * pol + 512 * eng)

/-- The command word of a command (R94, R95). -/
def encode : Instr → Word
  | .parseUChk w => commandWord 1 w 0 0 0
  | .parseUWrap w => commandWord 1 w 0 1 0
  | .parseSChk w => commandWord 1 w 1 0 0
  | .parseSWrap w => commandWord 1 w 1 1 0
  | .vparseUChk w => commandWord 1 w 0 0 1
  | .vparseUWrap w => commandWord 1 w 0 1 1
  | .vparseSChk w => commandWord 1 w 1 0 1
  | .vparseSWrap w => commandWord 1 w 1 1 1
  | .dcntU w => commandWord 2 w 0 0 0
  | .dcntS w => commandWord 2 w 1 0 0
  | .fmtU w => commandWord 3 w 0 0 0
  | .fmtS w => commandWord 3 w 1 0 0
  | .fmtaU w => commandWord 4 w 0 0 0
  | .fmtaS w => commandWord 4 w 1 0 0

/-- The instruction the decoder reads from a word of `nbits` bits, numbered as the opcode table
numbers them (bit 0 the least significant); every bit above `nbits` is 0. A command is one 32-bit
word (R98), so a longer number is none. The vector engine is taken as present (log entry 3). -/
def decodeTableWord (nbits w : Nat) : Option Instr :=
  if w % 2 ^ nbits < 2 ^ 32 then
    match decode true (BitVec.ofNat 32 (w % 2 ^ nbits)) with
    | .ok i => some i
    | .error _ => none
  else none

end Sys2Proof
end

