-- ==== Sys2Proof/Config.lean ====
section
/-! DEFINITION. What is fixed for a block and what the spec leaves open (spec/00_scope.md R5,
spec/10_state.md R23, R41; spec/93_implementation_defined.md U9 to U11). -/

namespace Sys2Proof

/-- The two byte buffers (R20, R61). -/
inductive Buffer
  | ibuf
  | obuf
  deriving DecidableEq, Repr

/-- FREE VALUE (log entry 4): what a buffer byte that nothing has written since the last Reset holds,
by the number of Resets so far, the buffer and the offset. R41: "each byte holds some value the spec
does not fix; it keeps that value until the host writes the byte". Nothing constrains it. -/
opaque Config.unwrittenByte : Nat → Buffer → Nat → Byte

/-- DESIGN CHOICE (log entry 3): the CAP word of the block that `State.reset` describes: HAS_VEC = 1
and the default capacities of R5. R23: "With the default capacities CAP reads 0x00202001 when
HAS_VEC = 1". The machine reads CAP from its state, so every other CAP is a state too. -/
def Config.resetCap : Word := 0x00202001#32

/-- The CAP word of a block without the vector engine (R23). -/
def Config.scalarCap : Word := 0x00202000#32

end Sys2Proof
end

