-- ==== Sys2Proof/Machine/RomTable.lean ====
section
/-! DEFINITION. The contents of the power-of-ten ROM: four tables, 38 words (spec/10_state.md R34 to R38). -/

namespace Sys2Proof.Machine

/-- The ROM's four tables, one per width of 8, 16, 32 and 64 bits; entry 0 first (R34). -/
structure Rom where
  t8 : List (BitVec 8)
  t16 : List (BitVec 16)
  t32 : List (BitVec 32)
  t64 : List (BitVec 64)
  deriving DecidableEq, Repr

/-- The constants of the ROM (R35 to R38). -/
def romContents : Rom where
  t8 := [0x64, 0x0A, 0x01]
  t16 := [0x2710, 0x03E8, 0x0064, 0x000A, 0x0001]
  t32 :=
    [0x3B9ACA00, 0x05F5E100, 0x00989680, 0x000F4240, 0x000186A0,
     0x00002710, 0x000003E8, 0x00000064, 0x0000000A, 0x00000001]
  t64 :=
    [0x8AC7230489E80000, 0x0DE0B6B3A7640000, 0x016345785D8A0000, 0x002386F26FC10000,
     0x00038D7EA4C68000, 0x00005AF3107A4000, 0x000009184E72A000, 0x000000E8D4A51000,
     0x000000174876E800, 0x00000002540BE400, 0x000000003B9ACA00, 0x0000000005F5E100,
     0x0000000000989680, 0x00000000000F4240, 0x00000000000186A0, 0x0000000000002710,
     0x00000000000003E8, 0x0000000000000064, 0x000000000000000A, 0x0000000000000001]

/-- `N(W)`, the length of the table of a width (R5, R91). -/
def tableLen : Width → Nat
  | .w8 => 3
  | .w16 => 5
  | .w32 => 10
  | .w64 => 20
  | .word => 20

end Sys2Proof.Machine
end

