-- ==== Sys2Proof/Machine/State.lean ====
section
/-! DEFINITION. The state of one BNC instance (spec/10_state.md R20 to R33, R41), the host's moves
(spec/20_memory.md R60) and the reasons a step can stop. -/

namespace Sys2Proof.Machine

/-- A byte buffer's written bytes: offset and byte, offsets strictly rising. An unlisted offset has
NO value of its own (nothing has written it since the last Reset); what a read of it gives is the
free value of log entry 4, drawn where the byte is read. -/
abbrev Memory := List Host.Cell

/-- A register's value as the host reads or writes it, whole and at the register's width (R20, R60),
or a buffer byte. -/
inductive HostValue
  | word32 (v : Word)
  | word64 (v : DWord)
  | byte (b : Byte)
  deriving DecidableEq, Repr

/-- The host's five primitives (R60). -/
inductive HostMove
  /-- `HostRead(i)` -/
  | read (i : Nat)
  /-- `HostWrite(i, v)`; index 0 is CMD, whose write executes the command -/
  | write (i : Nat) (v : HostValue)
  /-- `HostReadByte(S, a)` -/
  | readByte (b : Buffer) (a : Nat)
  /-- `HostWriteByte(S, a, v)` -/
  | writeByte (b : Buffer) (a : Nat) (v : Byte)
  /-- `Reset` -/
  | reset
  deriving DecidableEq, Repr

/-- The whole state. The first twelve fields are the spec's (R20); the last three are the model's own. -/
structure State where
  /-- CMD, the last command word written (R21). -/
  cmd : Word
  /-- STATUS, the outcome of the last command and the sticky fault bit (R22). -/
  status : Word
  /-- CAP, the constant capability word (R23): the parameters HAS_VEC, IBUF_CAP and OBUF_CAP. -/
  cap : Word
  /-- ILEN, the length of the input sequence (R24). -/
  ilen : Word
  /-- OLEN, the length of the caller's buffer (R25). -/
  olen : Word
  /-- OPND, the integer to format or to count (R26). -/
  opnd : DWord
  /-- RES, the parsed integer (R29). -/
  res : DWord
  /-- CNT, a digit count (R30). -/
  cnt : Word
  /-- ERRB, the offending byte (R31). -/
  errb : Word
  /-- IBUF (R32). -/
  ibuf : Memory
  /-- OBUF (R33). -/
  obuf : Memory
  /-- The power-of-ten ROM: state that nothing changes (R34, R39). -/
  rom : Rom
  /-- The model's own (log entry 5): how many Resets there have been. -/
  epoch : Nat
  /-- The model's own (log entry 1): the host's moves not yet performed, oldest first. -/
  pending : List HostMove
  /-- The model's own (log entry 2): what the host's reads have returned, newest first. -/
  replies : List HostValue
  deriving DecidableEq, Repr

/-- What stops the machine. Both are faults of the MODEL, which the spec asks for; the spec's own
faults (R261) are next states. -/
inductive Fault
  /-- Raised by the ROM lookup for an index outside 0 to N - 1 (R126: "a model must make such a lookup
  a fault of the model, not a number"). Safe: no command presents such an index to the ROM's own contents (R39, R145). -/
  | romIndex
  /-- Raised by the block's own buffer accesses outside the buffer (93 U4). Safe: reached only in a
  state whose CAP reports an OBUF_CAP below the 20 that R5 demands. -/
  | bufferBounds (b : Buffer)
  deriving DecidableEq, Repr

/-- What the model has no step for. -/
inductive Refusal
  /-- An instruction without a meaning; raised by no arm. Safe. -/
  | notModelled (mnemonic : String)
  /-- A host primitive with a register index above 15 (R60: "the spec gives it no meaning and a model
  refuses it"). Safe. -/
  | registerIndexOutsideInterface
  /-- A host primitive with a buffer offset at or above the capacity (R60). Safe. -/
  | bufferOffsetOutsideInterface
  /-- A `HostWrite` whose value has not the register's width (R7: "`v` has the register's width"). Safe. -/
  | valueWidthOutsideInterface
  deriving DecidableEq, Repr

/-- The state right after reset (R41) of a block whose CAP is `cap`. -/
def State.resetWith (cap : Word) : State where
  cmd := 0
  status := 0
  cap := cap
  ilen := 0
  olen := 0
  opnd := 0
  res := 0
  cnt := 0
  errb := 0
  ibuf := []
  obuf := []
  rom := romContents
  epoch := 0
  pending := []
  replies := []

/-- The machine right after reset (R41), with the CAP of log entry 3. -/
def State.reset : State := State.resetWith Config.resetCap

end Sys2Proof.Machine
end

