-- ==== Sys2Proof/Machine/Flags.lean ====
section
/-! DEFINITION. The fields of STATUS and CAP, the outcome codes, and how a command ends
(spec/10_state.md R22, R23; spec/60_exceptions.md R260 to R266). -/

namespace Sys2Proof.Machine

/-- STATUS.CODE, bits 3:0 (R22). -/
def statusCode (v : Word) : BitVec 4 := v.extractLsb' 0 4

/-- STATUS.FLT, bit 8 (R22). -/
def statusFlt (v : Word) : Bool := v.getLsbD 8

/-- `x[STATUS].CODE <- c`: the other fields keep their value (R7, R22). -/
def statusSetCode (v : Word) (c : BitVec 4) : Word := (v &&& 0xFFFFFFF0#32) ||| c.setWidth 32

/-- `x[STATUS].FLT <- 1`: the other fields keep their value (R7, R22). -/
def statusSetFlt (v : Word) : Word := v ||| 0x100#32

/-- CAP.HAS_VEC, bit 0 (R23). -/
def capHasVec (v : Word) : Bool := v.getLsbD 0

/-- CAP.IBUF_CAP, bits 15:8 (R23). -/
def capIbuf (v : Word) : Nat := (v.extractLsb' 8 8).toNat

/-- CAP.OBUF_CAP, bits 23:16 (R23). -/
def capObuf (v : Word) : Nat := (v.extractLsb' 16 8).toNat

/-- The outcomes of a command other than OK (R263): the document's two errors (R260) and the four
faults (R261). -/
inductive Err
  | invalidDigit (b : Byte)
  | overflow
  | illegal
  | lenRange
  | wrapLen
  | bufSmall
  deriving DecidableEq, Repr

/-- The CODE of an outcome (R263). -/
def Err.code : Err → BitVec 4
  | .invalidDigit _ => 1
  | .overflow => 2
  | .illegal => 8
  | .lenRange => 9
  | .wrapLen => 10
  | .bufSmall => 11

/-- What `raise E` puts into STATUS (R266): the code, and FLT when the code is 8 or more. -/
def Err.status (e : Err) (v : Word) : Word :=
  if 8 ≤ e.code.toNat then statusSetFlt (statusSetCode v e.code) else statusSetCode v e.code

/-- What `raise E` puts into ERRB (R266): the offending byte, for INVALID_DIGIT only. -/
def Err.errb (e : Err) (v : Word) : Word :=
  match e with
  | .invalidDigit b => b.setWidth 32
  | .overflow | .illegal | .lenRange | .wrapLen | .bufSmall => v

/-- `raise E(info)` (R266): the one shared operation by which a command ends with an error or a
fault. Nothing but STATUS and ERRB is written. -/
def State.raise (s : State) (e : Err) : State :=
  { s with status := e.status s.status, errb := e.errb s.errb }

/-- `complete(OK)` (R265): CODE becomes 0; FLT and ERRB keep their value. -/
def State.complete (s : State) : State :=
  { s with status := statusSetCode s.status 0 }

end Sys2Proof.Machine
end

