-- ==== Sys2Proof/Machine/Ops.lean ====
section
/-! DEFINITION. The named operations over the buffers (spec/20_memory.md R60, R61, R67 to R69;
spec/10_state.md R32, R33, R41), Reset (spec/70_reset_and_hazards.md R300), and how a meaning's result
becomes a step's outcome. -/

namespace Sys2Proof.Machine

/-- The byte listed at an offset, if any. -/
def Memory.get? : Memory → Nat → Option Byte
  | [], _ => none
  | (k, v) :: m, a => if a = k then some v else Memory.get? m a

/-- Write one byte, keeping the offsets strictly rising. -/
def Memory.set : Memory → Nat → Byte → Memory
  | [], a, v => [(a, v)]
  | (k, u) :: m, a, v =>
    if a < k then (a, v) :: (k, u) :: m
    else if a = k then (a, v) :: m
    else (k, u) :: Memory.set m a v

/-- The canonical form: offsets strictly rising. No listed byte can equal what an unlisted offset
reads as in the listing, since that is no value at all (log entry 6). -/
def Memory.wf : Memory → Bool
  | [] => true
  | [_] => true
  | (k, _) :: (l, u) :: m => decide (k < l) && Memory.wf ((l, u) :: m)

/-- Every listed offset is below the capacity. -/
def Memory.within (m : Memory) (capacity : Nat) : Bool :=
  m.all (fun c => decide (c.1 < capacity))

/-- CAP.HAS_VEC of the block (R23). -/
def State.hasVec (s : State) : Bool := capHasVec s.cap

/-- IBUF_CAP (R23). -/
def State.ibufCap (s : State) : Nat := capIbuf s.cap

/-- OBUF_CAP (R23). -/
def State.obufCap (s : State) : Nat := capObuf s.cap

/-- The capacity of a buffer. -/
def State.capacity (s : State) : Buffer → Nat
  | .ibuf => s.ibufCap
  | .obuf => s.obufCap

/-- The listed bytes of a buffer. -/
def State.memory (s : State) : Buffer → Memory
  | .ibuf => s.ibuf
  | .obuf => s.obuf

/-- The byte a buffer holds at an offset: the byte last written there, or, where nothing has written
it since the last Reset, the free value (R41, R71, R304; log entry 4). -/
def State.byte (s : State) (b : Buffer) (a : Nat) : Byte :=
  match (s.memory b).get? a with
  | some v => v
  | none => Config.unwrittenByte s.epoch b a

/-- Write one byte of a buffer: the host's write of R60. -/
def State.setByte (s : State) (b : Buffer) (a : Nat) (v : Byte) : State :=
  match b with
  | .ibuf => { s with ibuf := s.ibuf.set a v }
  | .obuf => { s with obuf := s.obuf.set a v }

/-- Four things of one kind, one per lane; lane 0 at the lowest offset (R63). -/
structure Lanes (α : Type) where
  l0 : α
  l1 : α
  l2 : α
  l3 : α
  deriving DecidableEq, Repr

/-- Apply an operation to each lane on its own. -/
def Lanes.map {α β : Type} (f : α → β) (x : Lanes α) : Lanes β :=
  ⟨f x.l0, f x.l1, f x.l2, f x.l3⟩

/-- Combine two groups lane by lane. -/
def Lanes.zip {α β γ : Type} (f : α → β → γ) (x : Lanes α) (y : Lanes β) : Lanes γ :=
  ⟨f x.l0 y.l0, f x.l1 y.l1, f x.l2 y.l2, f x.l3 y.l3⟩

/-- `MemRead(IBUF:a, 1)` by the block (R7, R68). -/
def ibufRead1 (s : State) (a : Nat) : Except Fault Byte :=
  if a < s.ibufCap then .ok (s.byte .ibuf a) else .error (.bufferBounds .ibuf)

/-- `MemRead(IBUF:a, 4)` by the block, lane 0 at offset `a` (R7, R63, R68). -/
def ibufRead4 (s : State) (a : Nat) : Except Fault (Lanes Byte) :=
  if a + 4 ≤ s.ibufCap then
    .ok ⟨s.byte .ibuf a, s.byte .ibuf (a + 1), s.byte .ibuf (a + 2), s.byte .ibuf (a + 3)⟩
  else .error (.bufferBounds .ibuf)

/-- `MemWrite(OBUF:a, 1, [v])` by the block into a buffer of `capacity` bytes (R7, R69). -/
def obufWrite1 (capacity : Nat) (m : Memory) (a : Nat) (v : Byte) : Except Fault Memory :=
  if a < capacity then .ok (m.set a v) else .error (.bufferBounds .obuf)

/-- `MemWrite(OBUF:a, 4, v)` by the block, lowest offset first (R7, R69). -/
def obufWrite4 (capacity : Nat) (m : Memory) (a : Nat) (v : Lanes Byte) : Except Fault Memory :=
  if a + 4 ≤ capacity then
    .ok ((((m.set a v.l0).set (a + 1) v.l1).set (a + 2) v.l2).set (a + 3) v.l3)
  else .error (.bufferBounds .obuf)

/-- The Reset primitive (R300): every register at its value of R41, CAP and the ROM kept, every buffer byte
unspecified anew (a fresh epoch, log entry 5). The host's own queue and answers are not the block's. -/
def State.resetBlock (s : State) : State :=
  { State.resetWith s.cap with
    rom := s.rom, epoch := s.epoch + 1, pending := s.pending, replies := s.replies }

/-- A meaning's result as a step's outcome. -/
def settle : Except Fault State → Host.Outcome State Fault Refusal
  | .ok s => .next s
  | .error f => .fault f

end Sys2Proof.Machine
end

