-- ==== Sys2Proof/Machine/Digit.lean ====
section
/-! DEFINITION. The digit decoder, one byte and four lanes, and the byte of a digit
(spec/40_arithmetic_and_digit_decoder.md R127 to R131). -/

namespace Sys2Proof.Machine

/-- ASCII_ZERO, the code of '0' (R5; from general knowledge, log entry 11). -/
def asciiZero : Byte := 0x30

/-- MINUS, the code of '-' (R5; from general knowledge, log entry 11). -/
def asciiMinus : Byte := 0x2D

/-- `Ddec(b) = (b - 0x30) mod 256` (R127). -/
def digitDecode (b : Byte) : Byte := b - asciiZero

/-- A decoded digit is invalid when it is above 9, unsigned (R125, R127). -/
def aboveNine (d : Byte) : Bool := decide (9 < d.toNat)

/-- `invalid(b)` (R127). -/
def digitInvalid (b : Byte) : Bool := aboveNine (digitDecode b)

/-- `any`: some lane is invalid (R129). -/
def anyLane (m : Lanes Bool) : Bool := m.l0 || m.l1 || m.l2 || m.l3

/-- The byte reported for a bad group: `b[k]` for the smallest `k` with `m[k]` (R130). -/
def reportedByte (b : Lanes Byte) (m : Lanes Bool) : Byte :=
  if m.l0 then b.l0 else if m.l1 then b.l1 else if m.l2 then b.l2 else b.l3

/-- The byte of a digit: `0x30 + q` (R131). -/
def digitByte (q : Nat) : Byte := asciiZero + BitVec.ofNat 8 q

end Sys2Proof.Machine
end

