-- ==== Sys2Proof/Machine/Operands.lean ====
section
/-! DEFINITION. The implicit operands of the commands: the low W bits of OPND, sign and magnitude, the
sign of an input sequence (spec/30_encoding.md R92; spec/43_sign_adapter.md R201, R202, R205). -/

namespace Sys2Proof.Machine

/-- `x[OPND][W-1:0]`; the bits above are ignored (R26). -/
def operand (w : Width) (s : State) : BitVec w.bits := s.opnd.setWidth w.bits

/-- `negw(a) = (0 -w a)`, wrapping negation (R123). -/
def negw {n : Nat} (a : BitVec n) : BitVec n := 0 - a

/-- An operand of the formatter: whether it is negative, and its magnitude as a number. -/
structure SignMag where
  neg : Bool
  mag : Nat
  deriving DecidableEq, Repr

/-- An unsigned operand (R175, R176, R178). -/
def unsignedOperand (w : Width) (s : State) : SignMag := ⟨false, (operand w s).toNat⟩

/-- A signed operand: `negv` is bit W-1, `mag` its wrapping negation when set (R205). -/
def signedOperand (w : Width) (s : State) : SignMag :=
  if (operand w s).msb then ⟨true, (negw (operand w s)).toNat⟩ else ⟨false, (operand w s).toNat⟩

/-- The sign of an input of length `L` and the offset of its first digit (R201): only offset 0 is
tested, and only when `L >= 1`. -/
def signDetect (s : State) (L : Nat) : Except Fault (Bool × Nat) :=
  if 1 ≤ L then do
    let b ← ibufRead1 s 0
    return if b = asciiMinus then (true, 1) else (false, 0)
  else .ok (false, 0)

/-- `ApplySign(neg, v)` (R202): wrapping negation, under both policies. -/
def applySign {n : Nat} (neg : Bool) (v : BitVec n) : BitVec n := if neg then negw v else v

end Sys2Proof.Machine
end

