-- ==== Sys2Proof/Machine/FormatEngine.lean ====
section
/-! DEFINITION. The digit counter, the four-digit extractor, the formatting core, and the sequences the
formatting commands share (spec/42_scalar_format.md R170 to R179; spec/43_sign_adapter.md R205 to R211).
The quotient is a mathematical number (spec/40 R124). -/

namespace Sys2Proof.Machine

/-- The loop of `Digits10` (R170), at most `passes` times. -/
def digitsLoop : (passes n cnt : Nat) → Nat
  | 0, _, cnt => cnt
  | passes + 1, n, cnt =>
    if n < 10 then cnt
    else if n < 100 then cnt + 1
    else if n < 1000 then cnt + 2
    else if n < 10000 then cnt + 3
    else digitsLoop passes (n / 10000) (cnt + 4)

/-- `Digits10(n)` (R170: "The loop runs at most 5 times"; log entry 12). -/
def digits10 (n : Nat) : Nat := digitsLoop 5 n 1

/-- `Extract4(n)`: the four low digits as bytes, the most significant first (R172). -/
def extract4 (n : Nat) : Lanes Byte :=
  ⟨digitByte (n / 1000 % 10), digitByte (n / 100 % 10), digitByte (n / 10 % 10), digitByte (n % 10)⟩

/-- The fixup loop of R174: one digit per step, at offset `pos - 1`. -/
def formatFixup (capacity : Nat) : (pos n : Nat) → Memory → Except Fault Memory
  | 0, _, _ => .error (.bufferBounds .obuf)
  | pos + 1, n, m => do
    let m' ← obufWrite1 capacity m pos (digitByte (n % 10))
    if n / 10 = 0 ∨ pos = 0 then .ok m' else formatFixup capacity pos (n / 10) m'

/-- The four-digit loop of R174, then the fixup loop; `pos` is the number of unfilled positions. -/
def formatGroups (capacity : Nat) : (pos n : Nat) → Memory → Except Fault Memory
  | pos + 4, n, m =>
    if 10000 ≤ n then do
      let m' ← obufWrite4 capacity m pos (extract4 n)
      formatGroups capacity pos (n / 10000) m'
    else formatFixup capacity (pos + 4) n m
  | pos, n, m =>
    if 10000 ≤ n then .error (.bufferBounds .obuf) else formatFixup capacity pos n m

/-- `FormatCore(n, B)` on OBUF (R174). -/
def formatCore (capacity : Nat) (m : Memory) (n B : Nat) : Except Fault Memory :=
  formatGroups capacity B n m

/-- The digit count of an operand, the sign included: `Digits10` or `SCount` (R170, R211). -/
def SignMag.count (v : SignMag) : Nat := digits10 v.mag + (if v.neg then 1 else 0)

/-- The number, and for a negative one the minus byte at offset `B - c`, `c` the digit count (R207). -/
def placeNumber (capacity : Nat) (m : Memory) (v : SignMag) (B : Nat) : Except Fault Memory := do
  let m' ← formatCore capacity m v.mag B
  if v.neg then obufWrite1 capacity m' (B - v.count) asciiMinus else .ok m'

/-- DCNT (R175, R206). -/
def runDcnt (v : SignMag) (s : State) : Except Fault State :=
  .ok { s with cnt := BitVec.ofNat 32 v.count }.complete

/-- FMT (R176, R207, R264): the window length, then the digit count against it, then the digits. -/
def runFmt (v : SignMag) (s : State) : Except Fault State :=
  let B := s.olen.toNat
  if s.obufCap < B then .ok (s.raise .lenRange)
  else if B < v.count then .ok (s.raise .bufSmall)
  else do
    let m ← placeNumber s.obufCap s.obuf v B
    return { s with obuf := m, cnt := BitVec.ofNat 32 v.count }.complete

/-- FMTA (R178, R208): OLEN becomes the digit count, and the window is exactly filled. -/
def runFmta (v : SignMag) (s : State) : Except Fault State := do
  let m ← placeNumber s.obufCap s.obuf v v.count
  return { s with olen := BitVec.ofNat 32 v.count, obuf := m, cnt := BitVec.ofNat 32 v.count }.complete

end Sys2Proof.Machine
end

