-- ==== Sys2Proof/Machine/Format.lean ====
section
/-! DEFINITION. The digit count and formatting commands (spec/42_scalar_format.md R175, R176, R178;
spec/43_sign_adapter.md R206 to R208). -/

namespace Sys2Proof.Machine

/-- DCNT.U (R175). -/
def execDcntU (w : Width) (s : State) : Host.Outcome State Fault Refusal :=
  settle (runDcnt (unsignedOperand w s) s)

/-- DCNT.S (R206). -/
def execDcntS (w : Width) (s : State) : Host.Outcome State Fault Refusal :=
  settle (runDcnt (signedOperand w s) s)

/-- FMT.U (R176). -/
def execFmtU (w : Width) (s : State) : Host.Outcome State Fault Refusal :=
  settle (runFmt (unsignedOperand w s) s)

/-- FMT.S (R207). -/
def execFmtS (w : Width) (s : State) : Host.Outcome State Fault Refusal :=
  settle (runFmt (signedOperand w s) s)

/-- FMTA.U (R178). -/
def execFmtaU (w : Width) (s : State) : Host.Outcome State Fault Refusal :=
  settle (runFmta (unsignedOperand w s) s)

/-- FMTA.S (R208). -/
def execFmtaS (w : Width) (s : State) : Host.Outcome State Fault Refusal :=
  settle (runFmta (signedOperand w s) s)

end Sys2Proof.Machine
end

