-- ==== Sys2Proof/Machine/Rom.lean ====
section
/-! DEFINITION. The lookup in the power-of-ten ROM (spec/10_state.md R34, R39; spec/40 R126). -/

namespace Sys2Proof.Machine

/-- The table of a width; the word-sized type uses the 64-bit table (R34). -/
def State.romTable (s : State) : (w : Width) → List (BitVec w.bits)
  | .w8 => s.rom.t8
  | .w16 => s.rom.t16
  | .w32 => s.rom.t32
  | .w64 => s.rom.t64
  | .word => s.rom.t64

/-- `T(W, i)` (R126); an index outside the table is a fault of the model. -/
def rom1 (w : Width) (s : State) (i : Nat) : Except Fault (BitVec w.bits) :=
  match (s.romTable w)[i]? with
  | some t => .ok t
  | none => .error .romIndex

/-- `T(W, i)` to `T(W, i + 3)`, the entries of one group step (R126). -/
def rom4 (w : Width) (s : State) (i : Nat) : Except Fault (Lanes (BitVec w.bits)) := do
  let t0 ← rom1 w s i
  let t1 ← rom1 w s (i + 1)
  let t2 ← rom1 w s (i + 2)
  let t3 ← rom1 w s (i + 3)
  return ⟨t0, t1, t2, t3⟩

end Sys2Proof.Machine
end

