-- ==== Sys2Proof/Machine/ParseEngine.lean ====
section
/-! DEFINITION. The two parse engines and the sequence every parse command shares
(spec/41_scalar_parse.md R141 to R150; spec/44_vector_parse.md R231 to R236; spec/60 R264). -/

namespace Sys2Proof.Machine

/-- What an accumulation core returns (R143): the magnitude, or the offending byte. -/
inductive ParseResult (n : Nat)
  | ok (v : BitVec n)
  | invalid (b : Byte)
  deriving DecidableEq, Repr

/-- The group step `Acc4` (R141): `t` holds `T(W, idx)` to `T(W, idx + 3)`. -/
def acc4 {n : Nat} (acc : BitVec n) (d : Lanes Byte) (t : Lanes (BitVec n)) : BitVec n :=
  acc + (d.l0.setWidth n * t.l0 + d.l1.setWidth n * t.l1 + d.l2.setWidth n * t.l2
    + d.l3.setWidth n * t.l3)

/-- The remainder step `Acc1` (R142): `t` is `T(W, idx)`. -/
def acc1 {n : Nat} (acc : BitVec n) (d : Byte) (t : BitVec n) : BitVec n :=
  acc + d.setWidth n * t

/-- The remainder loop of R143 and R236: `rem` single bytes. -/
def parseTail (w : Width) (s : State) :
    (rem idx cur : Nat) → (acc : BitVec w.bits) → Except Fault (ParseResult w.bits)
  | 0, _, _, acc => .ok (.ok acc)
  | rem + 1, idx, cur, acc => do
    let b ← ibufRead1 s cur
    if digitInvalid b then .ok (.invalid b)
    else
      let t ← rom1 w s idx
      parseTail w s rem (idx + 1) (cur + 1) (acc1 acc (digitDecode b) t)

/-- The group loop of the scalar core, then the remainder loop (R143). -/
def parseGroups (w : Width) (s : State) :
    (rem idx cur : Nat) → (acc : BitVec w.bits) → Except Fault (ParseResult w.bits)
  | rem + 4, idx, cur, acc => do
    let b ← ibufRead4 s cur
    if digitInvalid b.l0 then .ok (.invalid b.l0)
    else if digitInvalid b.l1 then .ok (.invalid b.l1)
    else if digitInvalid b.l2 then .ok (.invalid b.l2)
    else if digitInvalid b.l3 then .ok (.invalid b.l3)
    else
      let t ← rom4 w s idx
      parseGroups w s rem (idx + 4) (cur + 4) (acc4 acc (b.map digitDecode) t)
  | rem, idx, cur, acc => parseTail w s rem idx cur acc

/-- `ParseCore(W, s, Ld)` (R143), `off` the offset of the first digit. -/
def parseCore (w : Width) (s : State) (off len : Nat) : Except Fault (ParseResult w.bits) :=
  parseGroups w s len (tableLen w - len) off 0

/-- `V4LD(cur)` (R231). -/
def v4ld (s : State) (cur : Nat) : Except Fault (Lanes Byte) := ibufRead4 s cur

/-- `V4SUB(b)` (R232): each lane on its own. -/
def v4sub (b : Lanes Byte) : Lanes Byte := b.map (fun x => x - asciiZero)

/-- `V4GT9(d)`, the lane mask `m` (R233). -/
def v4gt9 (d : Lanes Byte) : Lanes Bool := d.map aboveNine

/-- `V4MUL(d, idx)` (R234): each product reduced modulo 2^W on its own. -/
def v4mul {n : Nat} (d : Lanes Byte) (t : Lanes (BitVec n)) : Lanes (BitVec n) :=
  d.zip (fun x y => x.setWidth n * y) t

/-- `V4HSUM(p)`, the horizontal sum (R235). -/
def v4hsum {n : Nat} (p : Lanes (BitVec n)) : BitVec n := p.l0 + p.l1 + p.l2 + p.l3

/-- The group loop of the vector core, then the scalar remainder loop (R236). -/
def vparseGroups (w : Width) (s : State) :
    (rem idx cur : Nat) → (acc : BitVec w.bits) → Except Fault (ParseResult w.bits)
  | rem + 4, idx, cur, acc => do
    let b ← v4ld s cur
    let d := v4sub b
    let m := v4gt9 d
    if anyLane m then .ok (.invalid (reportedByte b m))
    else
      let t ← rom4 w s idx
      vparseGroups w s rem (idx + 4) (cur + 4) (acc + v4hsum (v4mul d t))
  | rem, idx, cur, acc => parseTail w s rem idx cur acc

/-- `VParseCore(W, s, Ld)` (R236). -/
def vparseCore (w : Width) (s : State) (off len : Nat) : Except Fault (ParseResult w.bits) :=
  vparseGroups w s len (tableLen w - len) off 0

/-- The engine of a parse, the ENG bit (R90). -/
inductive Engine
  | scalar
  | vector
  deriving DecidableEq, Repr

/-- The core an engine runs. -/
def Engine.core : Engine → (w : Width) → State → (off len : Nat) → Except Fault (ParseResult w.bits)
  | .scalar => parseCore
  | .vector => vparseCore

/-- The policy of a parse, the POL bit (R90). -/
inductive Policy
  | checked
  | wrapping
  deriving DecidableEq, Repr

/-- How a policy ends a digit string longer than the table (R146, R147, R149). -/
def Policy.tooLong : Policy → Err
  | .checked => .overflow
  | .wrapping => .wrapLen

/-- The overflow detector: the length of the digit string only (R148). -/
def tooLong (w : Width) (len : Nat) : Bool := decide (tableLen w < len)

/-- How a parse ends with what the core returned: RES and OK, or INVALID_DIGIT (R151, R203, R266). -/
def parseEnd {n : Nat} (neg : Bool) (s : State) : ParseResult n → State
  | .ok v => { s with res := (applySign neg v).setWidth 64 }.complete
  | .invalid b => s.raise (.invalidDigit b)

/-- The sign of a parse's input and the offset of its first digit (R150): none for `.U`, R201 for `.S`. -/
def parseSign (signed : Bool) (s : State) (L : Nat) : Except Fault (Bool × Nat) :=
  if signed then signDetect s L else .ok (false, 0)

/-- Every parse command (R150, R151, R152, R203, R204, R264): the window length, the sign, the length
of the digit string, the digits. -/
def runParse (eng : Engine) (signed : Bool) (pol : Policy) (w : Width) (s : State) :
    Except Fault State :=
  let L := s.ilen.toNat
  if s.ibufCap < L then .ok (s.raise .lenRange)
  else do
    let (neg, off) ← parseSign signed s L
    if tooLong w (L - off) then .ok (s.raise pol.tooLong)
    else
      let r ← eng.core w s off (L - off)
      return parseEnd neg s r

/-- A parse on the vector engine: F_ILLEGAL where the engine is absent (R96, R238), and nothing else
of the command is tested then (R264). -/
def runVparse (signed : Bool) (pol : Policy) (w : Width) (s : State) : Except Fault State :=
  if s.hasVec then runParse .vector signed pol w s else .ok (s.raise .illegal)

end Sys2Proof.Machine
end

