-- ==== Sys2Proof/Machine/ScalarParse.lean ====
section
/-! DEFINITION. The unsigned parse commands on the scalar engine (spec/41_scalar_parse.md R151, R152). -/

namespace Sys2Proof.Machine

/-- PARSE.U.CHK (R151). -/
def execParseUChk (w : Width) (s : State) : Host.Outcome State Fault Refusal :=
  settle (runParse .scalar false .checked w s)

/-- PARSE.U.WRAP (R152). -/
def execParseUWrap (w : Width) (s : State) : Host.Outcome State Fault Refusal :=
  settle (runParse .scalar false .wrapping w s)

end Sys2Proof.Machine
end

