-- ==== Sys2Proof/Machine/SignedParse.lean ====
section
/-! DEFINITION. The signed parse commands on the scalar engine (spec/43_sign_adapter.md R203, R204). -/

namespace Sys2Proof.Machine

/-- PARSE.S.CHK (R203). -/
def execParseSChk (w : Width) (s : State) : Host.Outcome State Fault Refusal :=
  settle (runParse .scalar true .checked w s)

/-- PARSE.S.WRAP (R204). -/
def execParseSWrap (w : Width) (s : State) : Host.Outcome State Fault Refusal :=
  settle (runParse .scalar true .wrapping w s)

end Sys2Proof.Machine
end

