-- ==== Sys2Proof/Machine/VectorParse.lean ====
section
/-! DEFINITION. The parse commands on the vector engine (spec/44_vector_parse.md R238 to R241). -/

namespace Sys2Proof.Machine

/-- VPARSE.U.CHK (R238). -/
def execVparseUChk (w : Width) (s : State) : Host.Outcome State Fault Refusal :=
  settle (runVparse false .checked w s)

/-- VPARSE.U.WRAP (R239). -/
def execVparseUWrap (w : Width) (s : State) : Host.Outcome State Fault Refusal :=
  settle (runVparse false .wrapping w s)

/-- VPARSE.S.CHK (R240). -/
def execVparseSChk (w : Width) (s : State) : Host.Outcome State Fault Refusal :=
  settle (runVparse true .checked w s)

/-- VPARSE.S.WRAP (R241). -/
def execVparseSWrap (w : Width) (s : State) : Host.Outcome State Fault Refusal :=
  settle (runVparse true .wrapping w s)

end Sys2Proof.Machine
end

