-- ==== Sys2Proof/Machine/Dispatch.lean ====
section
/-! DEFINITION. One arm per command: the meaning of each row of R94. -/

namespace Sys2Proof.Machine

def exec (i : Instr) (s : State) : Host.Outcome State Fault Refusal :=
  match i with
  | .parseUChk w => Sys2Proof.Machine.execParseUChk w s
  | .parseUWrap w => Sys2Proof.Machine.execParseUWrap w s
  | .parseSChk w => Sys2Proof.Machine.execParseSChk w s
  | .parseSWrap w => Sys2Proof.Machine.execParseSWrap w s
  | .vparseUChk w => Sys2Proof.Machine.execVparseUChk w s
  | .vparseUWrap w => Sys2Proof.Machine.execVparseUWrap w s
  | .vparseSChk w => Sys2Proof.Machine.execVparseSChk w s
  | .vparseSWrap w => Sys2Proof.Machine.execVparseSWrap w s
  | .dcntU w => Sys2Proof.Machine.execDcntU w s
  | .dcntS w => Sys2Proof.Machine.execDcntS w s
  | .fmtU w => Sys2Proof.Machine.execFmtU w s
  | .fmtS w => Sys2Proof.Machine.execFmtS w s
  | .fmtaU w => Sys2Proof.Machine.execFmtaU w s
  | .fmtaS w => Sys2Proof.Machine.execFmtaS w s

end Sys2Proof.Machine
end

