-- ==== Sys2Proof/Machine/HostPort.lean ====
section
/-! DEFINITION. The host's five primitives (spec/20_memory.md R60, R62, R67, R71;
spec/10_state.md R20 to R31), the write of CMD among them, which executes a command (R21, R264). -/

namespace Sys2Proof.Machine

/-- A host write of CMD (R21, R264 steps 1 and 2): the word is stored, legal or not, then decoded; an
illegal word ends with F_ILLEGAL (R262), a legal one runs. -/
def commandWrite (c : Word) (s : State) : Host.Outcome State Fault Refusal :=
  let s' := { s with cmd := c }
  match decode s'.hasVec c with
  | .ok i => exec i s'
  | .error _ => .next (s'.raise .illegal)

/-- The value of a register (R20, R60, R62); indices 9 to 15 are reserved and read 0; above 15 there
is no register. -/
def State.register (s : State) : Nat → Option HostValue
  | 0 => some (.word32 s.cmd)
  | 1 => some (.word32 s.status)
  | 2 => some (.word32 s.cap)
  | 3 => some (.word32 s.ilen)
  | 4 => some (.word32 s.olen)
  | 5 => some (.word64 s.opnd)
  | 6 => some (.word64 s.res)
  | 7 => some (.word32 s.cnt)
  | 8 => some (.word32 s.errb)
  | i => if i < 16 then some (.word32 0) else none

/-- The answer of a read is handed to the host; no other state changes (R60, R67). -/
def State.answer (s : State) (v : HostValue) : State := { s with replies := v :: s.replies }

/-- `HostRead(i)` (R60). -/
def hostRead (i : Nat) (s : State) : Host.Outcome State Fault Refusal :=
  match s.register i with
  | some v => .next (s.answer v)
  | none => .refused .registerIndexOutsideInterface

/-- A host write of a 32-bit value (R60): CMD, ILEN and OLEN take it; STATUS, CAP, CNT, ERRB and the
reserved registers ignore it; OPND and RES have not this width. -/
def hostWrite32 (i : Nat) (v : Word) (s : State) : Host.Outcome State Fault Refusal :=
  match i with
  | 0 => commandWrite v s
  | 3 => .next { s with ilen := v }
  | 4 => .next { s with olen := v }
  | 5 => .refused .valueWidthOutsideInterface
  | 6 => .refused .valueWidthOutsideInterface
  | _ => if i < 16 then .next s else .refused .registerIndexOutsideInterface

/-- A host write of a 64-bit value (R60): OPND takes it, RES ignores it; no other register has this
width. -/
def hostWrite64 (i : Nat) (v : DWord) (s : State) : Host.Outcome State Fault Refusal :=
  match i with
  | 5 => .next { s with opnd := v }
  | 6 => .next s
  | _ =>
    if i < 16 then .refused .valueWidthOutsideInterface
    else .refused .registerIndexOutsideInterface

/-- `HostWrite(i, v)` (R60); no register is one byte wide. -/
def hostWrite (i : Nat) (v : HostValue) (s : State) : Host.Outcome State Fault Refusal :=
  match v with
  | .word32 x => hostWrite32 i x s
  | .word64 x => hostWrite64 i x s
  | .byte _ =>
    if i < 16 then .refused .valueWidthOutsideInterface
    else .refused .registerIndexOutsideInterface

/-- `HostReadByte(S, a)` (R60). -/
def hostReadByte (b : Buffer) (a : Nat) (s : State) : Host.Outcome State Fault Refusal :=
  if a < s.capacity b then .next (s.answer (.byte (s.byte b a)))
  else .refused .bufferOffsetOutsideInterface

/-- `HostWriteByte(S, a, v)` (R60). -/
def hostWriteByte (b : Buffer) (a : Nat) (v : Byte) (s : State) : Host.Outcome State Fault Refusal :=
  if a < s.capacity b then .next (s.setByte b a v)
  else .refused .bufferOffsetOutsideInterface

/-- One move of the host (R60). -/
def hostMove (m : HostMove) (s : State) : Host.Outcome State Fault Refusal :=
  match m with
  | .read i => hostRead i s
  | .write i v => hostWrite i v s
  | .readByte b a => hostReadByte b a s
  | .writeByte b a v => hostWriteByte b a v s
  | .reset => .next s.resetBlock

/-- The next event of the block's total order of host moves (R71): the oldest pending move, or none,
and then the block "is idle and holds its state" (R280). -/
def nextEvent (s : State) : Host.Outcome State Fault Refusal :=
  match s.pending with
  | [] => .next s
  | m :: rest => hostMove m { s with pending := rest }

/-- The host is about to write `w` (its low `nbits` bits) to CMD: that move is put before all others. -/
def presentCommand (s : State) (nbits w : Nat) : State :=
  { s with pending := .write 0 (.word32 (BitVec.ofNat 32 (w % 2 ^ nbits))) :: s.pending }

end Sys2Proof.Machine
end

