-- ==== Sys2Proof/Machine/Step.lean ====
section
/-! DEFINITION. One step: the oldest pending move of the host (spec/20_memory.md R60, R71;
spec/00_scope.md R8). The BNC has no program counter and fetches nothing (spec/10_state.md R27): the
place its next command comes from is the host's next write of CMD (log entry 1). -/

namespace Sys2Proof.Machine

/-- One step of the machine. -/
def step (s : State) : Host.Outcome State Fault Refusal := nextEvent s

/-- `s` with a command word standing where `step` takes its next one: the host's write of CMD. -/
def State.withFetchWord (s : State) (nbits w : Nat) : State := presentCommand s nbits w

end Sys2Proof.Machine
end

