-- ==== Sys2Proof/Machine/Driver.lean ====
section
/-! DEFINITION. Host scripts and the document's public operations as host sequences
(spec/30_encoding.md R99, R100). They are what a driver of the block does; the block itself has no
part in them but its five primitives. -/

namespace Sys2Proof.Machine

/-- A script is the list of its primitives (R99); it is run in order, and stops where one stops. -/
def playMoves : List HostMove → State → Host.Outcome State Fault Refusal
  | [], s => .next s
  | m :: rest, s =>
    match hostMove m s with
    | .next t => playMoves rest t
    | .fault f => .fault f
    | .refused r => .refused r

/-- `wb BUF[a], byte` for consecutive offsets from `a` on. -/
def writeBytesFrom (b : Buffer) : (a : Nat) → List Byte → List HostMove
  | _, [] => []
  | a, v :: rest => .writeByte b a v :: writeBytesFrom b (a + 1) rest

/-- `ibuf "text"`: the bytes, then `wr ILEN, length` (R100). -/
def scriptIbuf (bytes : List Byte) : List HostMove :=
  writeBytesFrom .ibuf 0 bytes ++ [.write 3 (.word32 (BitVec.ofNat 32 bytes.length))]

/-- `obuf_fill byte, count` (R100). -/
def scriptObufFill (v : Byte) (count : Nat) : List HostMove :=
  writeBytesFrom .obuf 0 (List.replicate count v)

/-- `cmd MNEMONIC width` (R99). -/
def scriptCmd (i : Instr) : HostMove := .write 0 (.word32 (encode i))

/-- `rb OBUF[a]` for a = 0 to count - 1: the bytes `expect_obuf` compares (R100). -/
def obufText (s : State) (count : Nat) : List Byte := (List.range count).map (s.byte .obuf)

/-- What a parse driver hands back (R100, result column). -/
inductive DriverParse (n : Nat)
  | ok (v : BitVec n)
  | invalidDigit (b : Byte)
  | overflow
  /-- CODE 10, "the caller broke the precondition"; and CODE 8 or 9, for which R100 has no row (log
  entry 13). -/
  | rejected (code : BitVec 4)
  deriving DecidableEq, Repr

/-- What a formatting driver hands back (R100). -/
inductive DriverFormat
  | ok (text : List Byte)
  /-- CODE 11, "the caller broke the precondition"; and CODE 8 or 9, for which R100 has no row (log
  entry 13). -/
  | rejected (code : BitVec 4)
  deriving DecidableEq, Repr

/-- `rd STATUS`, then RES or ERRB (R100). -/
def readParse (w : Width) (s : State) : DriverParse w.bits :=
  match (statusCode s.status).toNat with
  | 0 => .ok (s.res.setWidth w.bits)
  | 1 => .invalidDigit (s.errb.setWidth 8)
  | 2 => .overflow
  | _ => .rejected (statusCode s.status)

/-- Run a script and read an answer off the state it ends in. -/
def playThen {α : Type} (script : List HostMove) (answer : State → α) (s : State) :
    Host.Outcome (State × α) Fault Refusal :=
  match playMoves script s with
  | .next t => .next (t, answer t)
  | .fault f => .fault f
  | .refused r => .refused r

/-- The parse command of an engine, a signedness and a policy (R94). -/
def parseInstr (eng : Engine) (signed : Bool) (pol : Policy) (w : Width) : Instr :=
  decodeParse signed (decide (pol = .wrapping)) (decide (eng = .vector)) w

/-- `parse_unsigned` and `parse_signed` (R100): an input longer than IBUF_CAP is `Overflow` without
using the block. -/
def driveParseChecked (eng : Engine) (signed : Bool) (bytes : List Byte) (w : Width) (s : State) :
    Host.Outcome (State × DriverParse w.bits) Fault Refusal :=
  if s.ibufCap < bytes.length then .next (s, .overflow)
  else playThen (scriptIbuf bytes ++ [scriptCmd (parseInstr eng signed .checked w)]) (readParse w) s

/-- `parse_unsigned_wrapping` (R100), and its signed form (90_conflicts.md C6). -/
def driveParseWrapping (eng : Engine) (signed : Bool) (bytes : List Byte) (w : Width) (s : State) :
    Host.Outcome (State × DriverParse w.bits) Fault Refusal :=
  playThen (scriptIbuf bytes ++ [scriptCmd (parseInstr eng signed .wrapping w)]) (readParse w) s

/-- `digit_count(n)` (R100): CNT. -/
def driveDigitCount (signed : Bool) (n : DWord) (w : Width) (s : State) :
    Host.Outcome (State × Word) Fault Refusal :=
  playThen [.write 5 (.word64 n), scriptCmd (if signed then .dcntS w else .dcntU w)]
    (fun t => t.cnt) s

/-- The window of OBUF after a format, or the code it ended with. -/
def readFormat (count : State → Nat) (s : State) : DriverFormat :=
  match (statusCode s.status).toNat with
  | 0 => .ok (obufText s (count s))
  | _ => .rejected (statusCode s.status)

/-- `format_into(n, buffer)` (R100): the buffer goes to OBUF, and its bytes come back. -/
def driveFormatInto (signed : Bool) (n : DWord) (buffer : List Byte) (w : Width) (s : State) :
    Host.Outcome (State × DriverFormat) Fault Refusal :=
  playThen
    (writeBytesFrom .obuf 0 buffer
      ++ [.write 4 (.word32 (BitVec.ofNat 32 buffer.length)), .write 5 (.word64 n),
          scriptCmd (if signed then .fmtS w else .fmtU w)])
    (readFormat (fun _ => buffer.length)) s

/-- `format(n)` (R100): OBUF bytes 0 to OLEN - 1. -/
def driveFormat (signed : Bool) (n : DWord) (w : Width) (s : State) :
    Host.Outcome (State × DriverFormat) Fault Refusal :=
  playThen [.write 5 (.word64 n), scriptCmd (if signed then .fmtaS w else .fmtaU w)]
    (readFormat (fun t => t.olen.toNat)) s

end Sys2Proof.Machine
end

