-- ==== Sys2Proof/Safety.lean ====
section
/-! DEFINITION. What the claims are stated in: legal states (the invariant), and the spec's own
vocabulary for digit strings, digit counts and STATUS, written without the machine's engines. -/

namespace Sys2Proof.Machine

/-- A legal CAP: the reserved bits are 0 (R23), IBUF_CAP is at least 21 and OBUF_CAP at least 20 (R5;
the upper bound 255 is the field's). -/
abbrev CapLegal (v : Word) : Prop :=
  v.toNat / 2 % 128 = 0 ∧ v.toNat / 2 ^ 24 = 0 ∧ 21 ≤ capIbuf v ∧ 20 ≤ capObuf v

/-- A legal STATUS (R22): reserved bits 0, CODE one of the seven values produced, FLT set whenever CODE
is a fault. -/
abbrev StatusLegal (v : Word) : Prop :=
  v.toNat / 16 % 16 = 0 ∧ v.toNat / 2 ^ 9 = 0
    ∧ v.toNat % 16 ∈ [0, 1, 2, 8, 9, 10, 11]
    ∧ (8 ≤ v.toNat % 16 → v.toNat / 256 % 2 = 1)

/-- CMD reads 0 only when no command has run since reset, or the illegal word 0 was written and FLT
tells so (R22: "a host tells 'no command yet' from 'success' by CMD reading 0"). -/
abbrev NoCommandYet (s : State) : Prop :=
  s.cmd = 0 → statusFlt s.status = true ∨ (s.status = 0 ∧ s.res = 0 ∧ s.cnt = 0 ∧ s.errb = 0)

/-- The ROM holds its constants (R34, R41). -/
abbrev State.RomIntact (s : State) : Prop := s.rom = romContents

/-- The invariant of the machine: every state reached from a reset state with a legal CAP meets it, and
every step keeps it. -/
abbrev State.Inv (s : State) : Prop :=
  CapLegal s.cap ∧ StatusLegal s.status ∧ s.cnt.toNat ≤ 20 ∧ s.errb.toNat < 256
    ∧ s.ibuf.wf = true ∧ s.obuf.wf = true
    ∧ s.ibuf.within s.ibufCap = true ∧ s.obuf.within s.obufCap = true
    ∧ NoCommandYet s ∧ s.RomIntact

/-- STATUS with its CODE field (bits 3:0) replaced, and with FLT set when `bits` says so (R22, R266):
`bits` is the code, plus 0x100 for a fault. -/
abbrev statusWith (v bits : Word) : Word := (v &&& 0xFFFFFFF0#32) ||| bits

/-- The byte is one of '0' to '9' (R127). -/
abbrev IsDigit (b : Byte) : Prop := 0x30 ≤ b.toNat ∧ b.toNat ≤ 0x39

/-- The sum of R144 for the `len` bytes `c 0, c 1, …`: each digit times its power of ten. -/
def decimalSum (c : Nat → Byte) (len : Nat) : Nat :=
  ((List.range len).map (fun j => ((c j).toNat - 0x30) * 10 ^ (len - 1 - j))).sum

/-- The first invalid byte of the `len` bytes `c 0, c 1, …` stands at `j` (R130, R144). -/
abbrev FirstInvalidAt (c : Nat → Byte) (len j : Nat) : Prop :=
  j < len ∧ ¬ IsDigit (c j) ∧ ∀ i < j, IsDigit (c i)

/-- Without its first `k` bytes, all of them '0', the digit string `c 0, c 1, …` of `len` bytes has no
leading zero, or is one digit long (95 S10). -/
abbrev LeadingZeros (c : Nat → Byte) (len k : Nat) : Prop :=
  k < len ∧ (∀ j < k, c j = 0x30#8) ∧ (k + 1 = len ∨ c k ≠ 0x30#8)

/-- `c` is the number of decimal digits of `n`, 1 for 0 (R171). -/
abbrev IsDigitCount (c n : Nat) : Prop := 1 ≤ c ∧ n < 10 ^ c ∧ (c = 1 ∨ 10 ^ (c - 1) ≤ n)

/-- L, the length of the input sequence (R24). -/
abbrev State.inputLen (s : State) : Nat := s.ilen.toNat

/-- A signed parse skips a sign (R201): the input is not empty and begins with '-'. -/
abbrev State.HasMinus (s : State) : Prop := 1 ≤ s.inputLen ∧ s.byte .ibuf 0 = 0x2D#8

/-- The offset of the first digit: 0 for an unsigned parse, R201 for a signed one. -/
abbrev State.digitOff (s : State) (signed : Bool) : Nat :=
  if signed = true ∧ s.HasMinus then 1 else 0

/-- Ld, the length of the digit string (R150). -/
abbrev State.digitLen (s : State) (signed : Bool) : Nat := s.inputLen - s.digitOff signed

/-- The digit string, byte by byte. -/
abbrev State.digitAt (s : State) (signed : Bool) (j : Nat) : Byte :=
  s.byte .ibuf (s.digitOff signed + j)

/-- The low W bits of OPND, as a number (R26). -/
abbrev State.opndNat (s : State) (w : Width) : Nat := s.opnd.toNat % 2 ^ w.bits

/-- Bit W-1 of the operand is set (R205). -/
abbrev State.OpndNeg (s : State) (w : Width) : Prop := 2 ^ (w.bits - 1) ≤ s.opndNat w

/-- The magnitude of the operand read as signed (R205). -/
abbrev State.opndMag (s : State) (w : Width) : Nat :=
  if s.OpndNeg w then 2 ^ w.bits - s.opndNat w else s.opndNat w

/-- The state after a command that ends with the outcome `bits` and writes nothing but STATUS. -/
abbrev State.ended (s : State) (bits : Word) : State := { s with status := statusWith s.status bits }

end Sys2Proof.Machine
end

