-- ==== Sys2Proof/Certificates/Slice0/Obligations.lean ====
section
/-! DEFINITION. The statements for the provers, each from the numbered rules of spec/ that its
docstring names. In a statement about a command, `t` or the record after `.next` is the whole state
after it, so what the record does not name is unchanged. -/

open Sys2Proof Sys2Proof.Machine

/-! ## Encoding -/

/-- R95, R96: a word decodes to a command exactly when it is that command's word and the block has the
engine the command needs. -/
def Obligations.DecodeIsExactlyTheEncodedWord : Prop :=
  ∀ (hasVec : Bool) (c : Word) (i : Instr),
    decode hasVec c = .ok i ↔ (i.wellFormed hasVec = true ∧ encode i = c)

/-- The predicate `legal(c)` of R96, on the word as a number: some command decodes exactly when it
holds. -/
def Obligations.LegalityPredicateOfTheDecoder : Prop :=
  ∀ (hasVec : Bool) (c : Word),
    (∃ i, decode hasVec c = .ok i) ↔
      (c.toNat / 2 ^ 10 = 0
        ∧ (c.toNat % 16 = 1 ∨ c.toNat % 16 = 2 ∨ c.toNat % 16 = 3 ∨ c.toNat % 16 = 4)
        ∧ c.toNat / 16 % 8 ≤ 4
        ∧ (c.toNat % 16 = 1 ∨ (c.toNat / 256 % 2 = 0 ∧ c.toNat / 512 % 2 = 0))
        ∧ (c.toNat / 512 % 2 = 0 ∨ hasVec = true))

/-- Words of R95, one per mnemonic. -/
def Obligations.SampleWordsDecode : Prop :=
  decode true 0x001#32 = .ok (.parseUChk .w8) ∧ decode true 0x111#32 = .ok (.parseUWrap .w16)
    ∧ decode true 0x0A1#32 = .ok (.parseSChk .w32) ∧ decode true 0x1B1#32 = .ok (.parseSWrap .w64)
    ∧ decode true 0x241#32 = .ok (.vparseUChk .word) ∧ decode true 0x301#32 = .ok (.vparseUWrap .w8)
    ∧ decode true 0x291#32 = .ok (.vparseSChk .w16) ∧ decode true 0x3A1#32 = .ok (.vparseSWrap .w32)
    ∧ decode true 0x032#32 = .ok (.dcntU .w64) ∧ decode true 0x0C2#32 = .ok (.dcntS .word)
    ∧ decode true 0x003#32 = .ok (.fmtU .w8) ∧ decode true 0x093#32 = .ok (.fmtS .w16)
    ∧ decode true 0x024#32 = .ok (.fmtaU .w32) ∧ decode true 0x0B4#32 = .ok (.fmtaS .w64)

/-- R91: W and N of every width, and WSEL 4 behaves exactly as WSEL 3. -/
def Obligations.WidthSelectGivesWidthAndTableLength : Prop :=
  (Width.w8.bits = 8 ∧ Width.w16.bits = 16 ∧ Width.w32.bits = 32 ∧ Width.w64.bits = 64
      ∧ Width.word.bits = 64)
    ∧ (tableLen .w8 = 3 ∧ tableLen .w16 = 5 ∧ tableLen .w32 = 10 ∧ tableLen .w64 = 20
      ∧ tableLen .word = 20)
    ∧ (decodeWidth 0 = some .w8 ∧ decodeWidth 1 = some .w16 ∧ decodeWidth 2 = some .w32
      ∧ decodeWidth 3 = some .w64 ∧ decodeWidth 4 = some .word ∧ ∀ n, 5 ≤ n → decodeWidth n = none)
    ∧ ∀ s : State,
      exec (.parseUChk .word) s = exec (.parseUChk .w64) s
        ∧ exec (.parseUWrap .word) s = exec (.parseUWrap .w64) s
        ∧ exec (.parseSChk .word) s = exec (.parseSChk .w64) s
        ∧ exec (.parseSWrap .word) s = exec (.parseSWrap .w64) s
        ∧ exec (.vparseUChk .word) s = exec (.vparseUChk .w64) s
        ∧ exec (.vparseUWrap .word) s = exec (.vparseUWrap .w64) s
        ∧ exec (.vparseSChk .word) s = exec (.vparseSChk .w64) s
        ∧ exec (.vparseSWrap .word) s = exec (.vparseSWrap .w64) s
        ∧ exec (.dcntU .word) s = exec (.dcntU .w64) s ∧ exec (.dcntS .word) s = exec (.dcntS .w64) s
        ∧ exec (.fmtU .word) s = exec (.fmtU .w64) s ∧ exec (.fmtS .word) s = exec (.fmtS .w64) s
        ∧ exec (.fmtaU .word) s = exec (.fmtaU .w64) s ∧ exec (.fmtaS .word) s = exec (.fmtaS .w64) s

/-! ## Steps and the host's moves -/

/-- R21, R264: a step whose move is the host's write of a legal word to CMD stores the word and is then
that command. Around `exec` a step takes the move off the queue and writes CMD, nothing else. -/
def Obligations.StepRunsTheDecodedCommand : Prop :=
  ∀ (s : State) (c : Word) (rest : List HostMove) (i : Instr),
    s.pending = .write 0 (.word32 c) :: rest → decode s.hasVec c = .ok i →
    step s = exec i { s with pending := rest, cmd := c }

/-- R262: a write of a word that is not legal stores it in CMD, CODE becomes 8 and FLT 1, and nothing
else changes. -/
def Obligations.IllegalWordOnlyFaults : Prop :=
  ∀ (s : State) (c : Word), (∀ i, decode s.hasVec c ≠ .ok i) →
    hostMove (.write 0 (.word32 c)) s =
      .next { s with cmd := c, status := statusWith s.status 0x108#32 }

/-- R230, R238 to R241: without the vector engine its four commands end with F_ILLEGAL, from every
state and whatever else would end them; and the decoder refuses their words. -/
def Obligations.VectorCommandsFaultWithoutEngine : Prop :=
  ∀ (w : Width) (s : State), s.hasVec = false →
    exec (.vparseUChk w) s = .next (s.ended 0x108#32)
      ∧ exec (.vparseUWrap w) s = .next (s.ended 0x108#32)
      ∧ exec (.vparseSChk w) s = .next (s.ended 0x108#32)
      ∧ exec (.vparseSWrap w) s = .next (s.ended 0x108#32)
      ∧ (∀ i, i = .vparseUChk w ∨ i = .vparseUWrap w ∨ i = .vparseSChk w ∨ i = .vparseSWrap w →
          decode s.hasVec (encode i) = .error .vectorEngineAbsent)

/-- R60, R71: a step is the oldest pending move of the host, on the state without it. (The queue is the
model's own, log entry 1.) -/
def Obligations.StepPerformsTheOldestMove : Prop :=
  ∀ (s : State) (m : HostMove) (rest : List HostMove),
    s.pending = m :: rest → step s = hostMove m { s with pending := rest }

/-- R280: between commands (no move pending) the block is idle and holds its state. -/
def Obligations.IdleStepHoldsState : Prop :=
  ∀ s : State, s.pending = [] → step s = .next s

/-- R71: moves are performed one a step, in the host's order; a step never touches the moves after its
own, nor the answers already given. -/
def Obligations.StepTakesOneMoveInOrder : Prop :=
  ∀ (s t : State) (m : HostMove) (rest : List HostMove),
    s.pending = m :: rest → step s = .next t →
    t.pending = rest
      ∧ (((∃ i, m = .read i) ∨ ∃ b a, m = .readByte b a) → ∃ v, t.replies = v :: s.replies)
      ∧ (¬ ((∃ i, m = .read i) ∨ ∃ b a, m = .readByte b a) → t.replies = s.replies)

/-- R60, R62, R20: a read of register index 0 to 15 returns that register whole, reserved indices
return 0, and nothing else changes. (Where the answer goes is the model's own, log entry 2.) -/
def Obligations.HostReadAnswersTheRegister : Prop :=
  ∀ s : State,
    hostMove (.read 0) s = .next { s with replies := .word32 s.cmd :: s.replies }
      ∧ hostMove (.read 1) s = .next { s with replies := .word32 s.status :: s.replies }
      ∧ hostMove (.read 2) s = .next { s with replies := .word32 s.cap :: s.replies }
      ∧ hostMove (.read 3) s = .next { s with replies := .word32 s.ilen :: s.replies }
      ∧ hostMove (.read 4) s = .next { s with replies := .word32 s.olen :: s.replies }
      ∧ hostMove (.read 5) s = .next { s with replies := .word64 s.opnd :: s.replies }
      ∧ hostMove (.read 6) s = .next { s with replies := .word64 s.res :: s.replies }
      ∧ hostMove (.read 7) s = .next { s with replies := .word32 s.cnt :: s.replies }
      ∧ hostMove (.read 8) s = .next { s with replies := .word32 s.errb :: s.replies }
      ∧ ∀ i, 9 ≤ i → i ≤ 15 →
        hostMove (.read i) s = .next { s with replies := .word32 0 :: s.replies }

/-- R24, R25, R26: the host's write of ILEN, OLEN or OPND stores any value, and nothing else changes. -/
def Obligations.HostWriteStoresOperands : Prop :=
  ∀ (s : State) (v : Word) (x : DWord),
    hostMove (.write 3 (.word32 v)) s = .next { s with ilen := v }
      ∧ hostMove (.write 4 (.word32 v)) s = .next { s with olen := v }
      ∧ hostMove (.write 5 (.word64 x)) s = .next { s with opnd := x }

/-- R60: "A write to a read-only or reserved register is ignored: no state changes and no fault is
recorded." The read-only 32-bit registers are STATUS, CAP, CNT, ERRB and 9 to 15; RES has 64 bits. -/
def Obligations.ReadOnlyWritesAreIgnored : Prop :=
  ∀ (s : State) (i : Nat) (v : Word) (x : DWord),
    (i = 1 ∨ i = 2 ∨ i = 7 ∨ i = 8 ∨ (9 ≤ i ∧ i ≤ 15) → hostMove (.write i (.word32 v)) s = .next s)
      ∧ hostMove (.write 6 (.word64 x)) s = .next s

/-- R60: a register index above 15 or a buffer offset at or above the capacity is refused, by name. -/
def Obligations.AccessOutsideInterfaceIsRefused : Prop :=
  ∀ (s : State) (i a : Nat) (b : Buffer) (v : HostValue) (x : Byte),
    (15 < i →
      hostMove (.read i) s = .refused .registerIndexOutsideInterface
        ∧ hostMove (.write i v) s = .refused .registerIndexOutsideInterface)
    ∧ (s.capacity b ≤ a →
      hostMove (.readByte b a) s = .refused .bufferOffsetOutsideInterface
        ∧ hostMove (.writeByte b a x) s = .refused .bufferOffsetOutsideInterface)

/-- R60, R67, R32, R33: a byte read returns the byte the buffer holds at that offset and changes
nothing else, so a second read gives the same. -/
def Obligations.HostReadByteAnswersTheByte : Prop :=
  ∀ (s : State) (b : Buffer) (a : Nat), a < s.capacity b →
    hostMove (.readByte b a) s = .next { s with replies := .byte (s.byte b a) :: s.replies }

/-- R60, R61, R71: after a byte write the buffer holds that byte at that offset; every other byte of
both buffers, written or not, is as before, and so is everything else. -/
def Obligations.HostWriteByteChangesOneByte : Prop :=
  ∀ (s : State) (b : Buffer) (a : Nat) (v : Byte), a < s.capacity b →
    ∃ t, hostMove (.writeByte b a v) s = .next t ∧ t.byte b a = v
      ∧ (∀ (b' : Buffer) (a' : Nat), (b', a') ≠ (b, a) → t.byte b' a' = s.byte b' a')
      ∧ t = { s with ibuf := t.ibuf, obuf := t.obuf }

/-- R41, R300: after a Reset every register but CAP is 0, CAP and the ROM are kept, and every buffer byte is the
unspecified value drawn for that Reset. (That the draw is `Config.unwrittenByte` of the next epoch is
the model's choice, log entries 4 and 5.) -/
def Obligations.ResetClearsTheRegisters : Prop :=
  ∀ s : State,
    ∃ t, hostMove .reset s = .next t
      ∧ t.cmd = 0 ∧ t.status = 0 ∧ t.cap = s.cap ∧ t.ilen = 0 ∧ t.olen = 0 ∧ t.opnd = 0 ∧ t.res = 0
      ∧ t.cnt = 0 ∧ t.errb = 0 ∧ t.rom = s.rom
      ∧ (∀ b a, t.byte b a = Config.unwrittenByte (s.epoch + 1) b a)
      ∧ t.pending = s.pending ∧ t.replies = s.replies

/-- R41: the values of the machine right after reset; a block of any CAP resets to them. -/
def Obligations.ResetStateValues : Prop :=
  ∀ cap : Word,
    (State.resetWith cap).cap = cap
      ∧ (∀ i v, i ≠ 2 → (State.resetWith cap).register i = some v → v = .word32 0 ∨ v = .word64 0)
      ∧ (∀ b a, (State.resetWith cap).byte b a = Config.unwrittenByte 0 b a)
      ∧ (∀ b, (State.resetWith cap).memory b = [])
      ∧ (State.resetWith cap).RomIntact
      ∧ State.reset.cap = 0x00202001#32

/-! ## Invariants and whole-machine rules -/

/-- R5, R22, R23, R30, R31, R41: the invariant holds right after reset, for every legal CAP. -/
def Obligations.InvariantHoldsAtReset : Prop :=
  State.reset.Inv ∧ ∀ cap : Word, CapLegal cap → (State.resetWith cap).Inv

/-- Every step keeps the invariant, from every state that meets it. -/
def Obligations.StepKeepsInvariant : Prop :=
  ∀ s t : State, s.Inv → step s = .next t → t.Inv

/-- R39, R126, R145 and 93 U4: no ROM index outside its table and no buffer access outside its buffer
is ever made: from a state with a legal CAP and an intact ROM no step faults. -/
def Obligations.NoStepFaultsUnderLegalCap : Prop :=
  ∀ (s : State) (f : Fault), CapLegal s.cap → s.RomIntact → step s ≠ .fault f

/-- R23: CAP is constant: no step changes it, a Reset included. -/
def Obligations.CapIsConstant : Prop :=
  ∀ s t : State, step s = .next t → t.cap = s.cap

/-- R22, R269, R300: STATUS.FLT, once set, stays set through every step but a Reset. -/
def Obligations.FaultBitIsStickyUntilReset : Prop :=
  ∀ s t : State, step s = .next t → statusFlt s.status = true →
    statusFlt t.status = true ∨ ∃ rest, s.pending = .reset :: rest

/-- R22: a command sets FLT exactly when its CODE is 8 or more, and otherwise leaves it; and it writes
no reserved bit of STATUS. -/
def Obligations.CommandSetsFaultBitByItsCode : Prop :=
  ∀ (i : Instr) (s t : State), exec i s = .next t →
    statusFlt t.status = (statusFlt s.status || decide (8 ≤ (statusCode t.status).toNat))
      ∧ (∀ k, 4 ≤ k → k ≠ 8 → t.status.getLsbD k = s.status.getLsbD k)
      ∧ (statusCode t.status).toNat ∈ [0, 1, 2, 8, 9, 10, 11]

/-- R24, R26, R32, R21: no command changes ILEN, OPND, IBUF, CMD, CAP or the ROM. -/
def Obligations.CommandsLeaveTheHostsOperands : Prop :=
  ∀ (i : Instr) (s t : State), exec i s = .next t →
    t.cmd = s.cmd ∧ t.cap = s.cap ∧ t.ilen = s.ilen ∧ t.opnd = s.opnd ∧ t.rom = s.rom
      ∧ (∀ a, t.byte .ibuf a = s.byte .ibuf a)
      ∧ t.pending = s.pending ∧ t.replies = s.replies ∧ t.epoch = s.epoch

/-- R266, R268: a command that ends with any CODE but 0 changes STATUS, and ERRB for CODE 1, and
nothing else. -/
def Obligations.ErrorsWriteOnlyStatusAndErrb : Prop :=
  ∀ (i : Instr) (s t : State), exec i s = .next t → statusCode t.status ≠ 0 →
    t = { s with status := t.status, errb := t.errb }
      ∧ (statusCode t.status ≠ 1 → t.errb = s.errb)
      ∧ (statusCode t.status = 1 → t.errb.toNat < 256)

/-- R265, R266, R263: what `complete(OK)` and every `raise E` write. -/
def Obligations.CompleteAndRaiseWriteStatus : Prop :=
  ∀ s : State,
    s.complete = { s with status := s.status &&& 0xFFFFFFF0#32 }
      ∧ (∀ b : Byte, s.raise (.invalidDigit b) =
          { s with status := statusWith s.status 1#32, errb := BitVec.ofNat 32 b.toNat })
      ∧ s.raise .overflow = s.ended 2#32
      ∧ s.raise .illegal = s.ended 0x108#32
      ∧ s.raise .lenRange = s.ended 0x109#32
      ∧ s.raise .wrapLen = s.ended 0x10A#32
      ∧ s.raise .bufSmall = s.ended 0x10B#32

/-- R40: no hidden state. Two states with the same CAP, ILEN, OLEN, OPND and the same buffer contents
(whatever else they hold, and however the bytes came to be there) give a command the same outcome and
the same writes; only FLT remembers. A register is either left by both runs or written the same. -/
def Obligations.NoHiddenState : Prop :=
  ∀ (i : Instr) (s₁ s₂ : State),
    s₁.cap = s₂.cap → s₁.rom = s₂.rom → s₁.ilen = s₂.ilen → s₁.olen = s₂.olen → s₁.opnd = s₂.opnd →
    (∀ b a, s₁.byte b a = s₂.byte b a) →
    (∀ f, exec i s₁ = .fault f ↔ exec i s₂ = .fault f)
      ∧ ((∃ t, exec i s₁ = .next t) ↔ ∃ t, exec i s₂ = .next t)
      ∧ ∀ t₁ t₂, exec i s₁ = .next t₁ → exec i s₂ = .next t₂ →
        statusCode t₁.status = statusCode t₂.status ∧ t₁.olen = t₂.olen
          ∧ (∀ b a, t₁.byte b a = t₂.byte b a)
          ∧ (t₁.res = t₂.res ∨ (t₁.res = s₁.res ∧ t₂.res = s₂.res))
          ∧ (t₁.cnt = t₂.cnt ∨ (t₁.cnt = s₁.cnt ∧ t₂.cnt = s₂.cnt))
          ∧ (t₁.errb = t₂.errb ∨ (t₁.errb = s₁.errb ∧ t₂.errb = s₂.errb))

/-! ## Units -/

/-- R34, R126: `T(W, i) = 10^(N - 1 - i)`, which fits the width; the entries are strictly descending
and the last is 1; an index outside the table is a fault of the model; and no step changes the ROM. -/
def Obligations.RomHoldsPowersOfTen : Prop :=
  (∀ (w : Width) (s : State) (i : Nat), s.RomIntact →
    (i < tableLen w →
      10 ^ (tableLen w - 1 - i) < 2 ^ w.bits
        ∧ rom1 w s i = .ok (BitVec.ofNat w.bits (10 ^ (tableLen w - 1 - i))))
    ∧ (∀ x y, rom1 w s i = .ok x → rom1 w s (i + 1) = .ok y → y.toNat < x.toNat)
    ∧ rom1 w s (tableLen w - 1) = .ok 1
    ∧ (tableLen w ≤ i → rom1 w s i = .error .romIndex))
  ∧ ∀ s t : State, step s = .next t → t.rom = s.rom

/-- R127: the digit decoder, and exactly the bytes 0x30 to 0x39 are digits. -/
def Obligations.DigitDecoderAcceptsExactlyTheDigits : Prop :=
  ∀ b : Byte,
    (digitDecode b).toNat = (b.toNat + 256 - 0x30) % 256
      ∧ (digitInvalid b = true ↔ 9 < (digitDecode b).toNat)
      ∧ (digitInvalid b = false ↔ IsDigit b)
      ∧ (IsDigit b → (digitDecode b).toNat = b.toNat - 0x30)

/-- R123: wrapping negation. -/
def Obligations.NegationWrapsAndKeepsTheMinimum : Prop :=
  ∀ (w : Width) (a : BitVec w.bits),
    (negw a).toNat = (2 ^ w.bits - a.toNat) % 2 ^ w.bits
      ∧ negw a = 0 - a
      ∧ (a = 0 → negw a = 0)
      ∧ (a.toNat = 2 ^ (w.bits - 1) → negw a = a)
      ∧ (a.toNat ≠ 2 ^ (w.bits - 1) → (negw a).toInt = - a.toInt)

/-- R171: the digit counter gives the one count of decimal digits, at most N of the width. -/
def Obligations.DigitCounterCountsDecimalDigits : Prop :=
  ∀ (w : Width) (n : BitVec w.bits),
    (n.toNat = 0 → digits10 n.toNat = 1)
      ∧ (1 ≤ n.toNat → 10 ^ (digits10 n.toNat - 1) ≤ n.toNat ∧ n.toNat < 10 ^ digits10 n.toNat)
      ∧ 1 ≤ digits10 n.toNat ∧ digits10 n.toNat ≤ tableLen w

/-- R144: the closed form of the accumulation core: the decimal value modulo 2^W, or the first invalid
byte. -/
def Obligations.ParseCoreClosedForm : Prop :=
  ∀ (w : Width) (s : State) (off len : Nat), s.RomIntact → len ≤ tableLen w → off + len ≤ s.ibufCap →
    ((∀ j < len, IsDigit (s.byte .ibuf (off + j))) →
      parseCore w s off len =
        .ok (.ok (BitVec.ofNat w.bits
          (decimalSum (fun j => s.byte .ibuf (off + j)) len % 2 ^ w.bits))))
    ∧ ∀ j, FirstInvalidAt (fun j => s.byte .ibuf (off + j)) len j →
      parseCore w s off len = .ok (.invalid (s.byte .ibuf (off + j)))

/-- R237: the vector core equals the scalar core, on every input. -/
def Obligations.VectorCoreEqualsScalarCore : Prop :=
  ∀ (w : Width) (s : State) (off len : Nat), vparseCore w s off len = parseCore w s off len

/-- R179: with `c = Digits10(n)` and `B >= c` the formatting core writes the `c` digits of `n` at
offsets `B - c` to `B - 1`, and no other byte. -/
def Obligations.FormatCoreWritesTheDigits : Prop :=
  ∀ (w : Width) (n : BitVec w.bits) (capacity B c : Nat) (m : Memory),
    IsDigitCount c n.toNat → c ≤ B → B ≤ capacity →
    ∃ m', formatCore capacity m n.toNat B = .ok m'
      ∧ (∀ j < c, m'.get? (B - 1 - j) = some (BitVec.ofNat 8 (0x30 + n.toNat / 10 ^ j % 10)))
      ∧ ∀ a, a < B - c ∨ B ≤ a → m'.get? a = m.get? a

/-! ## The parse commands -/

/-- R151 to R153: an unsigned parse of at most N digits completes, under both policies, with the
decimal value modulo 2^W in RES; a value of 2^W or more is not detected. -/
def Obligations.UnsignedParseOfDigitsCompletes : Prop :=
  ∀ (w : Width) (s : State), s.RomIntact →
    s.inputLen ≤ s.ibufCap → s.inputLen ≤ tableLen w →
    (∀ j < s.inputLen, IsDigit (s.byte .ibuf j)) →
    let t : State := { s with
      res := BitVec.ofNat 64 (decimalSum (s.byte .ibuf) s.inputLen % 2 ^ w.bits)
      status := statusWith s.status 0 }
    exec (.parseUChk w) s = .next t ∧ exec (.parseUWrap w) s = .next t

/-- R201 to R204: a signed parse of at most N digits after an optional minus sign completes, under both
policies: RES is the magnitude modulo 2^W, negated modulo 2^W when there was a sign, with zeros above. -/
def Obligations.SignedParseOfDigitsCompletes : Prop :=
  ∀ (w : Width) (s : State), s.RomIntact →
    s.inputLen ≤ s.ibufCap → s.digitLen true ≤ tableLen w →
    (∀ j < s.digitLen true, IsDigit (s.digitAt true j)) →
    let v := decimalSum (s.digitAt true) (s.digitLen true) % 2 ^ w.bits
    let t : State := { s with
      res := BitVec.ofNat 64 (if s.HasMinus then (2 ^ w.bits - v) % 2 ^ w.bits else v)
      status := statusWith s.status 0 }
    exec (.parseSChk w) s = .next t ∧ exec (.parseSWrap w) s = .next t

/-- R238, R239: the same of the unsigned vector commands, where the engine is present. -/
def Obligations.VectorUnsignedParseOfDigitsCompletes : Prop :=
  ∀ (w : Width) (s : State), s.RomIntact → s.hasVec = true →
    s.inputLen ≤ s.ibufCap → s.inputLen ≤ tableLen w →
    (∀ j < s.inputLen, IsDigit (s.byte .ibuf j)) →
    let t : State := { s with
      res := BitVec.ofNat 64 (decimalSum (s.byte .ibuf) s.inputLen % 2 ^ w.bits)
      status := statusWith s.status 0 }
    exec (.vparseUChk w) s = .next t ∧ exec (.vparseUWrap w) s = .next t

/-- R240, R241: the same of the signed vector commands, where the engine is present. -/
def Obligations.VectorSignedParseOfDigitsCompletes : Prop :=
  ∀ (w : Width) (s : State), s.RomIntact → s.hasVec = true →
    s.inputLen ≤ s.ibufCap → s.digitLen true ≤ tableLen w →
    (∀ j < s.digitLen true, IsDigit (s.digitAt true j)) →
    let v := decimalSum (s.digitAt true) (s.digitLen true) % 2 ^ w.bits
    let t : State := { s with
      res := BitVec.ofNat 64 (if s.HasMinus then (2 ^ w.bits - v) % 2 ^ w.bits else v)
      status := statusWith s.status 0 }
    exec (.vparseSChk w) s = .next t ∧ exec (.vparseSWrap w) s = .next t

/-- R238 to R241: with the engine present "every outcome, every register write and every status code
equals that of" the scalar command on the same state. -/
def Obligations.VectorCommandsEqualScalarCommands : Prop :=
  ∀ (w : Width) (s : State), s.hasVec = true →
    exec (.vparseUChk w) s = exec (.parseUChk w) s
      ∧ exec (.vparseUWrap w) s = exec (.parseUWrap w) s
      ∧ exec (.vparseSChk w) s = exec (.parseSChk w) s
      ∧ exec (.vparseSWrap w) s = exec (.parseSWrap w) s

/-- R150, R263: a parse with ILEN above IBUF_CAP ends with F_LEN_RANGE, whatever the bytes are. -/
def Obligations.ParseBeyondTheBufferIsLenRange : Prop :=
  ∀ (w : Width) (s : State), s.ibufCap < s.inputLen →
    exec (.parseUChk w) s = .next (s.ended 0x109#32)
      ∧ exec (.parseUWrap w) s = .next (s.ended 0x109#32)
      ∧ exec (.parseSChk w) s = .next (s.ended 0x109#32)
      ∧ exec (.parseSWrap w) s = .next (s.ended 0x109#32)
      ∧ (s.hasVec = true →
        exec (.vparseUChk w) s = .next (s.ended 0x109#32)
          ∧ exec (.vparseUWrap w) s = .next (s.ended 0x109#32)
          ∧ exec (.vparseSChk w) s = .next (s.ended 0x109#32)
          ∧ exec (.vparseSWrap w) s = .next (s.ended 0x109#32))

/-- R146, R148, R149: a digit string longer than N ends a parse with OVERFLOW under the Checked policy
and with F_WRAP_LEN under the Wrapping policy, whatever the bytes are; the sign does not count. -/
def Obligations.TooManyDigitsEndTheParseByPolicy : Prop :=
  ∀ (w : Width) (s : State), s.inputLen ≤ s.ibufCap →
    (tableLen w < s.digitLen false →
      exec (.parseUChk w) s = .next (s.ended 2#32)
        ∧ exec (.parseUWrap w) s = .next (s.ended 0x10A#32)
        ∧ (s.hasVec = true → exec (.vparseUChk w) s = .next (s.ended 2#32)
          ∧ exec (.vparseUWrap w) s = .next (s.ended 0x10A#32)))
    ∧ (tableLen w < s.digitLen true →
      exec (.parseSChk w) s = .next (s.ended 2#32)
        ∧ exec (.parseSWrap w) s = .next (s.ended 0x10A#32)
        ∧ (s.hasVec = true → exec (.vparseSChk w) s = .next (s.ended 2#32)
          ∧ exec (.vparseSWrap w) s = .next (s.ended 0x10A#32)))

/-- R130, R146, R147: within the length, the first invalid byte of the digit string ends every parse
with INVALID_DIGIT and stands in ERRB, whichever engine and policy. -/
def Obligations.FirstInvalidByteIsReported : Prop :=
  ∀ (w : Width) (s : State), s.RomIntact → s.inputLen ≤ s.ibufCap →
    (∀ j, s.digitLen false ≤ tableLen w →
      FirstInvalidAt (s.digitAt false) (s.digitLen false) j →
      let t : State := { s with
        status := statusWith s.status 1#32, errb := BitVec.ofNat 32 (s.digitAt false j).toNat }
      exec (.parseUChk w) s = .next t ∧ exec (.parseUWrap w) s = .next t
        ∧ (s.hasVec = true → exec (.vparseUChk w) s = .next t ∧ exec (.vparseUWrap w) s = .next t))
    ∧ (∀ j, s.digitLen true ≤ tableLen w →
      FirstInvalidAt (s.digitAt true) (s.digitLen true) j →
      let t : State := { s with
        status := statusWith s.status 1#32, errb := BitVec.ofNat 32 (s.digitAt true j).toNat }
      exec (.parseSChk w) s = .next t ∧ exec (.parseSWrap w) s = .next t
        ∧ (s.hasVec = true → exec (.vparseSChk w) s = .next t ∧ exec (.vparseSWrap w) s = .next t))

/-- R29, R31, R66: the frame of the eight parse commands. Whatever the outcome, only STATUS, RES and
ERRB can change: RES only with CODE 0, ERRB only with CODE 1; no byte of a buffer changes. -/
def Obligations.ParseFrame : Prop :=
  ∀ (w : Width) (i : Instr) (s t : State),
    i = .parseUChk w ∨ i = .parseUWrap w ∨ i = .parseSChk w ∨ i = .parseSWrap w
      ∨ i = .vparseUChk w ∨ i = .vparseUWrap w ∨ i = .vparseSChk w ∨ i = .vparseSWrap w →
    exec i s = .next t →
    t = { s with status := t.status, res := t.res, errb := t.errb }
      ∧ (statusCode t.status ≠ 0 → t.res = s.res)
      ∧ (statusCode t.status ≠ 1 → t.errb = s.errb)
      ∧ (∀ b a, t.byte b a = s.byte b a)
      ∧ ∀ k, 4 ≤ k → k ≠ 8 → t.status.getLsbD k = s.status.getLsbD k

/-- R32, R66: a parse reads only the window: with any other IBUF whose first ILEN bytes are the same, a
parse that gives a next state gives the same one, IBUF apart. -/
def Obligations.BytesBeyondTheWindowAreIgnored : Prop :=
  ∀ (w : Width) (i : Instr) (s t : State) (m : Memory),
    i = .parseUChk w ∨ i = .parseUWrap w ∨ i = .parseSChk w ∨ i = .parseSWrap w
      ∨ i = .vparseUChk w ∨ i = .vparseUWrap w ∨ i = .vparseSChk w ∨ i = .vparseSWrap w →
    (∀ a < s.inputLen, ({ s with ibuf := m } : State).byte .ibuf a = s.byte .ibuf a) →
    exec i s = .next t → exec i { s with ibuf := m } = .next { t with ibuf := m }

/-! ## The digit count and formatting commands -/

/-- R175, R206, R211: DCNT completes from every state: CNT is the digit count of the operand, for a
negative one that of its magnitude plus 1, and nothing but CNT and STATUS is written. -/
def Obligations.DigitCountCompletes : Prop :=
  ∀ (w : Width) (s : State) (c : Nat),
    (IsDigitCount c (s.opndNat w) →
      exec (.dcntU w) s =
        .next { s with cnt := BitVec.ofNat 32 c, status := statusWith s.status 0 })
    ∧ (IsDigitCount c (s.opndMag w) →
      exec (.dcntS w) s =
        .next { s with
          cnt := BitVec.ofNat 32 (c + if s.OpndNeg w then 1 else 0)
          status := statusWith s.status 0 })

/-- R211: `SCount`, the signed digit count: that of the magnitude, plus 1 for a negative operand; its
range is 1 to 4, 6, 11 and 20 at the widths 8, 16, 32 and 64. -/
def Obligations.SignedDigitCountAndItsRange : Prop :=
  ∀ (w : Width) (s : State), ∃ t, exec (.dcntS w) s = .next t
    ∧ (∀ c, IsDigitCount c (s.opndMag w) → t.cnt.toNat = c + if s.OpndNeg w then 1 else 0)
    ∧ 1 ≤ t.cnt.toNat
    ∧ t.cnt.toNat ≤ (match w with | .w8 => 4 | .w16 => 6 | .w32 => 11 | .w64 => 20 | .word => 20)

/-- R176, R177, R179: FMT.U with a window that holds the `c` digits of the operand completes: the digits
stand at OBUF offsets OLEN - c to OLEN - 1, every other byte of OBUF is as before, CNT is `c`. -/
def Obligations.UnsignedFormatCompletes : Prop :=
  ∀ (w : Width) (s : State) (c : Nat),
    IsDigitCount c (s.opndNat w) → c ≤ s.olen.toNat → s.olen.toNat ≤ s.obufCap →
    ∃ m, exec (.fmtU w) s =
        .next { s with obuf := m, cnt := BitVec.ofNat 32 c, status := statusWith s.status 0 }
      ∧ (∀ j < c, m.get? (s.olen.toNat - 1 - j) =
          some (BitVec.ofNat 8 (0x30 + s.opndNat w / 10 ^ j % 10)))
      ∧ ∀ a, a < s.olen.toNat - c ∨ s.olen.toNat ≤ a → m.get? a = s.obuf.get? a

/-- R207, R205, R177: FMT.S likewise for the magnitude, with a minus byte immediately left of the most
significant digit of a negative number, and CNT the count with the sign. -/
def Obligations.SignedFormatCompletes : Prop :=
  ∀ (w : Width) (s : State) (c : Nat),
    IsDigitCount c (s.opndMag w) →
    let n := c + if s.OpndNeg w then 1 else 0
    n ≤ s.olen.toNat → s.olen.toNat ≤ s.obufCap →
    ∃ m, exec (.fmtS w) s =
        .next { s with obuf := m, cnt := BitVec.ofNat 32 n, status := statusWith s.status 0 }
      ∧ (∀ j < c, m.get? (s.olen.toNat - 1 - j) =
          some (BitVec.ofNat 8 (0x30 + s.opndMag w / 10 ^ j % 10)))
      ∧ (s.OpndNeg w → m.get? (s.olen.toNat - n) = some 0x2D#8)
      ∧ ∀ a, a < s.olen.toNat - n ∨ s.olen.toNat ≤ a → m.get? a = s.obuf.get? a

/-- R178: FMTA.U completes on every operand: OLEN and CNT become the digit count `c`, OBUF bytes 0 to
c - 1 the digits, every other byte of OBUF is as before. The capacity is R5's. -/
def Obligations.UnsignedExactFormatCompletes : Prop :=
  ∀ (w : Width) (s : State) (c : Nat), CapLegal s.cap → IsDigitCount c (s.opndNat w) →
    ∃ m, exec (.fmtaU w) s =
        .next { s with
          olen := BitVec.ofNat 32 c, obuf := m, cnt := BitVec.ofNat 32 c
          status := statusWith s.status 0 }
      ∧ (∀ j < c, m.get? (c - 1 - j) = some (BitVec.ofNat 8 (0x30 + s.opndNat w / 10 ^ j % 10)))
      ∧ ∀ a, c ≤ a → m.get? a = s.obuf.get? a

/-- R208: FMTA.S likewise, with the minus byte of a negative number at OBUF offset 0. -/
def Obligations.SignedExactFormatCompletes : Prop :=
  ∀ (w : Width) (s : State) (c : Nat), CapLegal s.cap → IsDigitCount c (s.opndMag w) →
    let n := c + if s.OpndNeg w then 1 else 0
    ∃ m, exec (.fmtaS w) s =
        .next { s with
          olen := BitVec.ofNat 32 n, obuf := m, cnt := BitVec.ofNat 32 n
          status := statusWith s.status 0 }
      ∧ (∀ j < c, m.get? (n - 1 - j) = some (BitVec.ofNat 8 (0x30 + s.opndMag w / 10 ^ j % 10)))
      ∧ (s.OpndNeg w → m.get? 0 = some 0x2D#8)
      ∧ ∀ a, n ≤ a → m.get? a = s.obuf.get? a

/-- R176, R207, R264: FMT with OLEN above OBUF_CAP ends with F_LEN_RANGE; with OLEN inside it but below
the count (sign included), with F_BUF_SMALL and an untouched OBUF. -/
def Obligations.FormatWindowFaults : Prop :=
  ∀ (w : Width) (s : State),
    (s.obufCap < s.olen.toNat →
      exec (.fmtU w) s = .next (s.ended 0x109#32) ∧ exec (.fmtS w) s = .next (s.ended 0x109#32))
    ∧ ∀ c, s.olen.toNat ≤ s.obufCap →
      (IsDigitCount c (s.opndNat w) → s.olen.toNat < c →
        exec (.fmtU w) s = .next (s.ended 0x10B#32))
      ∧ (IsDigitCount c (s.opndMag w) → s.olen.toNat < c + (if s.OpndNeg w then 1 else 0) →
        exec (.fmtS w) s = .next (s.ended 0x10B#32))

/-- R30, R66: the frame of DCNT: only CNT and STATUS, and no byte of a buffer. -/
def Obligations.DigitCountFrame : Prop :=
  ∀ (w : Width) (i : Instr) (s t : State), i = .dcntU w ∨ i = .dcntS w → exec i s = .next t →
    t = { s with status := t.status, cnt := t.cnt }
      ∧ statusCode t.status = 0
      ∧ (∀ k, 4 ≤ k → t.status.getLsbD k = s.status.getLsbD k)
      ∧ ∀ b a, t.byte b a = s.byte b a

/-- R33, R69, R177: the frame of FMT, whatever the outcome: only OBUF, CNT and STATUS; the bytes stored
are OLEN - c to OLEN - 1 for the operand's count `c`, and every other byte is as before. -/
def Obligations.FormatFrame : Prop :=
  ∀ (w : Width) (i : Instr) (v : SignMag) (s t : State),
    (i = .fmtU w ∧ v = unsignedOperand w s) ∨ (i = .fmtS w ∧ v = signedOperand w s) →
    exec i s = .next t →
    t = { s with status := t.status, cnt := t.cnt, obuf := t.obuf }
      ∧ (∀ k, 4 ≤ k → k ≠ 8 → t.status.getLsbD k = s.status.getLsbD k)
      ∧ (statusCode t.status ≠ 0 → t.cnt = s.cnt ∧ t.obuf = s.obuf)
      ∧ (∀ a, t.byte .ibuf a = s.byte .ibuf a)
      ∧ ∀ a, (a < s.olen.toNat - v.count ∨ s.olen.toNat ≤ a) → t.byte .obuf a = s.byte .obuf a

/-- R33, R178, R208: the frame of FMTA: only OLEN, OBUF, CNT and STATUS; the bytes stored are 0 to c - 1
for the operand's count `c`. -/
def Obligations.ExactFormatFrame : Prop :=
  ∀ (w : Width) (i : Instr) (v : SignMag) (s t : State),
    (i = .fmtaU w ∧ v = unsignedOperand w s) ∨ (i = .fmtaS w ∧ v = signedOperand w s) →
    exec i s = .next t →
    t = { s with status := t.status, cnt := t.cnt, olen := t.olen, obuf := t.obuf }
      ∧ statusCode t.status = 0
      ∧ (∀ k, 4 ≤ k → t.status.getLsbD k = s.status.getLsbD k)
      ∧ (∀ a, t.byte .ibuf a = s.byte .ibuf a)
      ∧ ∀ a, v.count ≤ a → t.byte .obuf a = s.byte .obuf a

/-- R26: "A command of width W uses `x[OPND][W-1:0]` and ignores bits 63 to W": an operand with the same
low W bits gives the same run. -/
def Obligations.UpperOperandBitsAreIgnored : Prop :=
  ∀ (w : Width) (i : Instr) (s t : State) (x : DWord),
    i = .dcntU w ∨ i = .dcntS w ∨ i = .fmtU w ∨ i = .fmtS w ∨ i = .fmtaU w ∨ i = .fmtaS w →
    x.toNat % 2 ^ w.bits = s.opndNat w → exec i s = .next t →
    exec i { s with opnd := x } = .next { t with opnd := x }

/-! ## Round trips and drivers -/

/-- 95 S11, R210: formatting an unsigned operand exactly and parsing the bytes gives the operand back:
`u` is any state whose input is the text that FMTA.U left in OBUF. -/
def Obligations.UnsignedFormatThenParse : Prop :=
  ∀ (w : Width) (s t u : State),
    exec (.fmtaU w) s = .next t →
    u.RomIntact → u.ilen = t.olen → u.inputLen ≤ u.ibufCap →
    (∀ j < u.inputLen, u.byte .ibuf j = t.byte .obuf j) →
    exec (.parseUChk w) u =
      .next { u with res := BitVec.ofNat 64 (s.opndNat w), status := statusWith u.status 0 }

/-- 95 S4, S11, R210: the same of a signed operand, the minimum included. -/
def Obligations.SignedFormatThenParse : Prop :=
  ∀ (w : Width) (s t u : State),
    exec (.fmtaS w) s = .next t →
    u.RomIntact → u.ilen = t.olen → u.inputLen ≤ u.ibufCap →
    (∀ j < u.inputLen, u.byte .ibuf j = t.byte .obuf j) →
    exec (.parseSChk w) u =
      .next { u with res := BitVec.ofNat 64 (s.opndNat w), status := statusWith u.status 0 }

/-- 95 S10: parsing a digit string whose value is in range, and formatting the result exactly, gives the
string back without its `k` leading zeros (all of a zero's but one); a signed text keeps its minus
sign, unless its value is 0, which formats as "0". -/
def Obligations.ParseThenFormatIsTheText : Prop :=
  ∀ (w : Width) (s t u : State) (k : Nat), s.RomIntact → u.opnd = t.res → CapLegal u.cap →
    (s.inputLen ≤ tableLen w → (∀ j < s.inputLen, IsDigit (s.byte .ibuf j)) →
      LeadingZeros (s.byte .ibuf) s.inputLen k →
      decimalSum (s.byte .ibuf) s.inputLen < 2 ^ w.bits →
      exec (.parseUChk w) s = .next t → statusCode t.status = 0 →
      ∃ x, exec (.fmtaU w) u = .next x ∧ x.olen = BitVec.ofNat 32 (s.inputLen - k)
        ∧ ∀ j < s.inputLen - k, x.byte .obuf j = s.byte .ibuf (k + j))
    ∧ (s.digitLen true ≤ tableLen w → (∀ j < s.digitLen true, IsDigit (s.digitAt true j)) →
      LeadingZeros (s.digitAt true) (s.digitLen true) k →
      let v := decimalSum (s.digitAt true) (s.digitLen true)
      let sign := if s.HasMinus ∧ v ≠ 0 then 1 else 0
      v < 2 ^ (w.bits - 1) ∨ (s.HasMinus ∧ v = 2 ^ (w.bits - 1)) →
      exec (.parseSChk w) s = .next t → statusCode t.status = 0 →
      ∃ x, exec (.fmtaS w) u = .next x
        ∧ x.olen = BitVec.ofNat 32 (s.digitLen true - k + sign)
        ∧ (sign = 1 → x.byte .obuf 0 = 0x2D#8)
        ∧ ∀ j < s.digitLen true - k, x.byte .obuf (sign + j) = s.digitAt true (k + j))

/-- R100: `parse_unsigned` as a host sequence. From any state with a legal CAP and an intact ROM, on at
most N digits, it answers their value modulo 2^W; and an input longer than IBUF_CAP is `Overflow`
without using the block. -/
def Obligations.DriverParsesDigits : Prop :=
  ∀ (w : Width) (s : State) (bytes : List Byte),
    (CapLegal s.cap → s.RomIntact → bytes.length ≤ tableLen w → (∀ b ∈ bytes, IsDigit b) →
      ∃ t, driveParseChecked .scalar false bytes w s =
        .next (t, .ok (BitVec.ofNat w.bits
          (decimalSum (fun j => bytes.getD j 0) bytes.length))))
    ∧ (s.ibufCap < bytes.length → driveParseChecked .scalar false bytes w s = .next (s, .overflow))
end

