-- ==== Sys2Proof/Laws/State.lean ====
section
/-! SUPPORT. The field lemmas of every named update of the state: one per field per update, so that
no proof unfolds a record update. -/

namespace Sys2Proof.Machine

section raise
variable (s : State) (e : Err)
@[simp] theorem State.raise_cmd : (s.raise e).cmd = s.cmd := rfl
@[simp] theorem State.raise_status : (s.raise e).status = e.status s.status := rfl
@[simp] theorem State.raise_cap : (s.raise e).cap = s.cap := rfl
@[simp] theorem State.raise_ilen : (s.raise e).ilen = s.ilen := rfl
@[simp] theorem State.raise_olen : (s.raise e).olen = s.olen := rfl
@[simp] theorem State.raise_opnd : (s.raise e).opnd = s.opnd := rfl
@[simp] theorem State.raise_res : (s.raise e).res = s.res := rfl
@[simp] theorem State.raise_cnt : (s.raise e).cnt = s.cnt := rfl
@[simp] theorem State.raise_errb : (s.raise e).errb = e.errb s.errb := rfl
@[simp] theorem State.raise_ibuf : (s.raise e).ibuf = s.ibuf := rfl
@[simp] theorem State.raise_obuf : (s.raise e).obuf = s.obuf := rfl
@[simp] theorem State.raise_rom : (s.raise e).rom = s.rom := rfl
@[simp] theorem State.raise_epoch : (s.raise e).epoch = s.epoch := rfl
@[simp] theorem State.raise_pending : (s.raise e).pending = s.pending := rfl
@[simp] theorem State.raise_replies : (s.raise e).replies = s.replies := rfl
end raise

section complete
variable (s : State)
@[simp] theorem State.complete_cmd : (s.complete).cmd = s.cmd := rfl
@[simp] theorem State.complete_status : (s.complete).status = statusSetCode s.status 0 := rfl
@[simp] theorem State.complete_cap : (s.complete).cap = s.cap := rfl
@[simp] theorem State.complete_ilen : (s.complete).ilen = s.ilen := rfl
@[simp] theorem State.complete_olen : (s.complete).olen = s.olen := rfl
@[simp] theorem State.complete_opnd : (s.complete).opnd = s.opnd := rfl
@[simp] theorem State.complete_res : (s.complete).res = s.res := rfl
@[simp] theorem State.complete_cnt : (s.complete).cnt = s.cnt := rfl
@[simp] theorem State.complete_errb : (s.complete).errb = s.errb := rfl
@[simp] theorem State.complete_ibuf : (s.complete).ibuf = s.ibuf := rfl
@[simp] theorem State.complete_obuf : (s.complete).obuf = s.obuf := rfl
@[simp] theorem State.complete_rom : (s.complete).rom = s.rom := rfl
@[simp] theorem State.complete_epoch : (s.complete).epoch = s.epoch := rfl
@[simp] theorem State.complete_pending : (s.complete).pending = s.pending := rfl
@[simp] theorem State.complete_replies : (s.complete).replies = s.replies := rfl
end complete

section resetBlock
variable (s : State)
@[simp] theorem State.resetBlock_cmd : (s.resetBlock).cmd = 0 := rfl
@[simp] theorem State.resetBlock_status : (s.resetBlock).status = 0 := rfl
@[simp] theorem State.resetBlock_cap : (s.resetBlock).cap = s.cap := rfl
@[simp] theorem State.resetBlock_ilen : (s.resetBlock).ilen = 0 := rfl
@[simp] theorem State.resetBlock_olen : (s.resetBlock).olen = 0 := rfl
@[simp] theorem State.resetBlock_opnd : (s.resetBlock).opnd = 0 := rfl
@[simp] theorem State.resetBlock_res : (s.resetBlock).res = 0 := rfl
@[simp] theorem State.resetBlock_cnt : (s.resetBlock).cnt = 0 := rfl
@[simp] theorem State.resetBlock_errb : (s.resetBlock).errb = 0 := rfl
@[simp] theorem State.resetBlock_ibuf : (s.resetBlock).ibuf = [] := rfl
@[simp] theorem State.resetBlock_obuf : (s.resetBlock).obuf = [] := rfl
@[simp] theorem State.resetBlock_rom : (s.resetBlock).rom = s.rom := rfl
@[simp] theorem State.resetBlock_epoch : (s.resetBlock).epoch = s.epoch + 1 := rfl
@[simp] theorem State.resetBlock_pending : (s.resetBlock).pending = s.pending := rfl
@[simp] theorem State.resetBlock_replies : (s.resetBlock).replies = s.replies := rfl
end resetBlock

section answer
variable (s : State) (v : HostValue)
@[simp] theorem State.answer_cmd : (s.answer v).cmd = s.cmd := rfl
@[simp] theorem State.answer_status : (s.answer v).status = s.status := rfl
@[simp] theorem State.answer_cap : (s.answer v).cap = s.cap := rfl
@[simp] theorem State.answer_ilen : (s.answer v).ilen = s.ilen := rfl
@[simp] theorem State.answer_olen : (s.answer v).olen = s.olen := rfl
@[simp] theorem State.answer_opnd : (s.answer v).opnd = s.opnd := rfl
@[simp] theorem State.answer_res : (s.answer v).res = s.res := rfl
@[simp] theorem State.answer_cnt : (s.answer v).cnt = s.cnt := rfl
@[simp] theorem State.answer_errb : (s.answer v).errb = s.errb := rfl
@[simp] theorem State.answer_ibuf : (s.answer v).ibuf = s.ibuf := rfl
@[simp] theorem State.answer_obuf : (s.answer v).obuf = s.obuf := rfl
@[simp] theorem State.answer_rom : (s.answer v).rom = s.rom := rfl
@[simp] theorem State.answer_epoch : (s.answer v).epoch = s.epoch := rfl
@[simp] theorem State.answer_pending : (s.answer v).pending = s.pending := rfl
@[simp] theorem State.answer_replies : (s.answer v).replies = v :: s.replies := rfl
end answer

section setByte
variable (s : State) (b : Buffer) (a : Nat) (v : Byte)
@[simp] theorem State.setByte_cmd : (s.setByte b a v).cmd = s.cmd := by cases b <;> rfl
@[simp] theorem State.setByte_status : (s.setByte b a v).status = s.status := by cases b <;> rfl
@[simp] theorem State.setByte_cap : (s.setByte b a v).cap = s.cap := by cases b <;> rfl
@[simp] theorem State.setByte_ilen : (s.setByte b a v).ilen = s.ilen := by cases b <;> rfl
@[simp] theorem State.setByte_olen : (s.setByte b a v).olen = s.olen := by cases b <;> rfl
@[simp] theorem State.setByte_opnd : (s.setByte b a v).opnd = s.opnd := by cases b <;> rfl
@[simp] theorem State.setByte_res : (s.setByte b a v).res = s.res := by cases b <;> rfl
@[simp] theorem State.setByte_cnt : (s.setByte b a v).cnt = s.cnt := by cases b <;> rfl
@[simp] theorem State.setByte_errb : (s.setByte b a v).errb = s.errb := by cases b <;> rfl
@[simp] theorem State.setByte_ibuf : (s.setByte b a v).ibuf = (if b = .ibuf then s.ibuf.set a v else s.ibuf) := by cases b <;> rfl
@[simp] theorem State.setByte_obuf : (s.setByte b a v).obuf = (if b = .obuf then s.obuf.set a v else s.obuf) := by cases b <;> rfl
@[simp] theorem State.setByte_rom : (s.setByte b a v).rom = s.rom := by cases b <;> rfl
@[simp] theorem State.setByte_epoch : (s.setByte b a v).epoch = s.epoch := by cases b <;> rfl
@[simp] theorem State.setByte_pending : (s.setByte b a v).pending = s.pending := by cases b <;> rfl
@[simp] theorem State.setByte_replies : (s.setByte b a v).replies = s.replies := by cases b <;> rfl
end setByte

section withFetchWord
variable (s : State) (nbits w : Nat)
@[simp] theorem State.withFetchWord_cmd : (s.withFetchWord nbits w).cmd = s.cmd := rfl
@[simp] theorem State.withFetchWord_status : (s.withFetchWord nbits w).status = s.status := rfl
@[simp] theorem State.withFetchWord_cap : (s.withFetchWord nbits w).cap = s.cap := rfl
@[simp] theorem State.withFetchWord_ilen : (s.withFetchWord nbits w).ilen = s.ilen := rfl
@[simp] theorem State.withFetchWord_olen : (s.withFetchWord nbits w).olen = s.olen := rfl
@[simp] theorem State.withFetchWord_opnd : (s.withFetchWord nbits w).opnd = s.opnd := rfl
@[simp] theorem State.withFetchWord_res : (s.withFetchWord nbits w).res = s.res := rfl
@[simp] theorem State.withFetchWord_cnt : (s.withFetchWord nbits w).cnt = s.cnt := rfl
@[simp] theorem State.withFetchWord_errb : (s.withFetchWord nbits w).errb = s.errb := rfl
@[simp] theorem State.withFetchWord_ibuf : (s.withFetchWord nbits w).ibuf = s.ibuf := rfl
@[simp] theorem State.withFetchWord_obuf : (s.withFetchWord nbits w).obuf = s.obuf := rfl
@[simp] theorem State.withFetchWord_rom : (s.withFetchWord nbits w).rom = s.rom := rfl
@[simp] theorem State.withFetchWord_epoch : (s.withFetchWord nbits w).epoch = s.epoch := rfl
@[simp] theorem State.withFetchWord_pending : (s.withFetchWord nbits w).pending = .write 0 (.word32 (BitVec.ofNat 32 (w % 2 ^ nbits))) :: s.pending := rfl
@[simp] theorem State.withFetchWord_replies : (s.withFetchWord nbits w).replies = s.replies := rfl
end withFetchWord

section resetWith
variable (c : Word)
@[simp] theorem State.resetWith_cmd : (State.resetWith c).cmd = 0 := rfl
@[simp] theorem State.resetWith_status : (State.resetWith c).status = 0 := rfl
@[simp] theorem State.resetWith_cap : (State.resetWith c).cap = c := rfl
@[simp] theorem State.resetWith_ilen : (State.resetWith c).ilen = 0 := rfl
@[simp] theorem State.resetWith_olen : (State.resetWith c).olen = 0 := rfl
@[simp] theorem State.resetWith_opnd : (State.resetWith c).opnd = 0 := rfl
@[simp] theorem State.resetWith_res : (State.resetWith c).res = 0 := rfl
@[simp] theorem State.resetWith_cnt : (State.resetWith c).cnt = 0 := rfl
@[simp] theorem State.resetWith_errb : (State.resetWith c).errb = 0 := rfl
@[simp] theorem State.resetWith_ibuf : (State.resetWith c).ibuf = [] := rfl
@[simp] theorem State.resetWith_obuf : (State.resetWith c).obuf = [] := rfl
@[simp] theorem State.resetWith_rom : (State.resetWith c).rom = romContents := rfl
@[simp] theorem State.resetWith_epoch : (State.resetWith c).epoch = 0 := rfl
@[simp] theorem State.resetWith_pending : (State.resetWith c).pending = [] := rfl
@[simp] theorem State.resetWith_replies : (State.resetWith c).replies = [] := rfl
end resetWith

/-- The capacities and the vector flag are read from CAP alone. -/
theorem State.capacity_eq_of_cap {s t : State} (h : t.cap = s.cap) (b : Buffer) :
    t.capacity b = s.capacity b := by
  cases b <;> simp [State.capacity, State.ibufCap, State.obufCap, h]

end Sys2Proof.Machine
end

