-- ==== Sys2Proof/Laws/Memory.lean ====
section
/-! SUPPORT. The buffers: a read after a write, what a write leaves alone, and that every operation
over a buffer keeps its canonical form and its bound. -/

namespace Sys2Proof.Machine

@[simp] theorem Memory.get?_nil (a : Nat) : Memory.get? [] a = none := rfl

@[simp] theorem Memory.get?_set_self (m : Memory) (a : Nat) (v : Byte) : (m.set a v).get? a = some v := by
  induction m with
  | nil => simp [Memory.set, Memory.get?]
  | cons c m ih =>
    obtain ⟨k, u⟩ := c
    simp only [Memory.set]
    split
    · simp [Memory.get?]
    · split
      · simp [Memory.get?]
      · rename_i h
        simp [Memory.get?, h, ih]

@[simp] theorem Memory.get?_set_other {a x : Nat} (m : Memory) (v : Byte) (h : x ≠ a) :
    (m.set a v).get? x = m.get? x := by
  induction m with
  | nil => simp [Memory.set, Memory.get?, h]
  | cons c m ih =>
    obtain ⟨k, u⟩ := c
    simp only [Memory.set]
    split
    · simp [Memory.get?, h]
    · split
      · subst_vars
        simp [Memory.get?, h]
      · simp [Memory.get?, ih]

/-- One spelling for both: a read after a write. -/
theorem Memory.get?_set (m : Memory) (a x : Nat) (v : Byte) :
    (m.set a v).get? x = if x = a then some v else m.get? x := by
  split
  · subst_vars; simp
  · next h => exact Memory.get?_set_other m v h

/-- A list is in canonical form when its first offset is below all that follow, and so on. -/
theorem Memory.wf_cons (k : Nat) (u : Byte) (m : Memory) :
    Memory.wf ((k, u) :: m) = true ↔ (∀ c ∈ m.head?, k < c.1) ∧ m.wf = true := by
  cases m with
  | nil => simp [Memory.wf]
  | cons c m => obtain ⟨l, w⟩ := c; simp [Memory.wf]

/-- The first offset after a write is the written one or the one that was first. -/
theorem Memory.head_set (m : Memory) (a : Nat) (v : Byte) :
    ∀ c ∈ (m.set a v).head?, c.1 = a ∨ ∃ d ∈ m.head?, c.1 = d.1 := by
  cases m with
  | nil => simp [Memory.set]
  | cons c m =>
    obtain ⟨k, u⟩ := c
    simp only [Memory.set]
    split
    · simp
    · split <;> simp

/-- A write keeps the canonical form. -/
theorem Memory.wf_set {m : Memory} (h : m.wf = true) (a : Nat) (v : Byte) : (m.set a v).wf = true := by
  induction m with
  | nil => rfl
  | cons c m ih =>
    obtain ⟨k, u⟩ := c
    obtain ⟨hk, hm⟩ := (Memory.wf_cons k u m).1 h
    simp only [Memory.set]
    split
    · next hlt => exact (Memory.wf_cons _ _ _).2 ⟨by simpa using hlt, h⟩
    · split
      · next heq => subst heq; exact (Memory.wf_cons _ _ _).2 ⟨hk, hm⟩
      · next hlt hne =>
        refine (Memory.wf_cons _ _ _).2 ⟨?_, ih hm⟩
        intro c hc
        rcases Memory.head_set m a v c hc with h1 | ⟨d, hd, h1⟩
        · omega
        · rw [h1]; exact hk d hd

/-- A write below the bound keeps every listed offset below it. -/
theorem Memory.within_set {m : Memory} {n a : Nat} (h : m.within n = true) (ha : a < n) (v : Byte) :
    (m.set a v).within n = true := by
  induction m with
  | nil => simp [Memory.set, Memory.within, ha]
  | cons c m ih =>
    obtain ⟨k, u⟩ := c
    simp only [Memory.within, List.all_cons, Bool.and_eq_true, decide_eq_true_eq] at h ih
    simp only [Memory.set]
    split
    · simp [Memory.within, ha, h.1]; simpa using h.2
    · split
      · simp [Memory.within, ha]; simpa using h.2
      · simp only [Memory.within, List.all_cons, Bool.and_eq_true, decide_eq_true_eq]
        exact ⟨h.1, ih h.2⟩

/-- Reset lists nothing. -/
theorem reset_memory_wf (c : Word) :
    (State.resetWith c).ibuf.wf = true ∧ (State.resetWith c).obuf.wf = true := ⟨rfl, rfl⟩

/-- A byte depends on its buffer's listing and on the epoch alone. -/
theorem State.byte_congr {s t : State} {b : Buffer} {a : Nat}
    (hm : (t.memory b).get? a = (s.memory b).get? a) (he : t.epoch = s.epoch) :
    t.byte b a = s.byte b a := by
  simp [State.byte, hm, he]

@[simp] theorem State.byte_raise (s : State) (e : Err) (b : Buffer) (a : Nat) :
    (s.raise e).byte b a = s.byte b a := by cases b <;> rfl

@[simp] theorem State.byte_complete (s : State) (b : Buffer) (a : Nat) :
    s.complete.byte b a = s.byte b a := by cases b <;> rfl

end Sys2Proof.Machine
end

