-- ==== Sys2Proof/Laws/Format.lean ====
section
/-! SUPPORT. What the formatting sequences can answer and which bytes of OBUF they may touch
(spec/42_scalar_format.md R174, R177), said once. -/

namespace Sys2Proof.Machine

/-- A single write by the block: inside the buffer, and nothing but that byte. -/
theorem obufWrite1_ok {n a : Nat} {m m' : Memory} {v : Byte} (h : obufWrite1 n m a v = .ok m') :
    a < n ∧ m' = m.set a v := by
  unfold obufWrite1 at h
  split at h
  · next ha => exact ⟨ha, (Except.ok.inj h).symm⟩
  · simp at h

theorem obufWrite4_ok {n a : Nat} {m m' : Memory} {v : Lanes Byte} (h : obufWrite4 n m a v = .ok m') :
    a + 4 ≤ n ∧ m' = (((m.set a v.l0).set (a + 1) v.l1).set (a + 2) v.l2).set (a + 3) v.l3 := by
  unfold obufWrite4 at h
  split at h
  · next ha => exact ⟨ha, (Except.ok.inj h).symm⟩
  · simp at h

/-- What every write below `n` keeps: the canonical form, the bound, and the bytes from `top` on. -/
structure BufferKept (n top : Nat) (m m' : Memory) : Prop where
  wf : m.wf = true → m'.wf = true
  within : m.within n = true → m'.within n = true
  above : ∀ a, top ≤ a → m'.get? a = m.get? a

theorem BufferKept.refl (n top : Nat) (m : Memory) : BufferKept n top m m :=
  ⟨id, id, fun _ _ => rfl⟩

theorem BufferKept.set {n top a : Nat} {m : Memory} (ha : a < n) (ht : a < top) (v : Byte) :
    BufferKept n top m (m.set a v) :=
  ⟨fun h => Memory.wf_set h a v, fun h => Memory.within_set h ha v,
   fun x hx => Memory.get?_set_other m v (by omega)⟩

theorem BufferKept.trans {n top : Nat} {m m' m'' : Memory} (h : BufferKept n top m m')
    (h' : BufferKept n top m' m'') : BufferKept n top m m'' :=
  ⟨fun x => h'.wf (h.wf x), fun x => h'.within (h.within x),
   fun a ha => (h'.above a ha).trans (h.above a ha)⟩

theorem BufferKept.mono {n top top' : Nat} {m m' : Memory} (h : BufferKept n top m m')
    (ht : top ≤ top') : BufferKept n top' m m' :=
  ⟨h.wf, h.within, fun a ha => h.above a (by omega)⟩

theorem formatFixup_kept {n pos v : Nat} {m m' : Memory} (h : formatFixup n pos v m = .ok m') :
    BufferKept n pos m m' := by
  induction pos generalizing v m with
  | zero => simp [formatFixup] at h
  | succ pos ih =>
    simp only [formatFixup, bind, Except.bind] at h
    split at h
    · simp at h
    · next m1 h1 =>
      obtain ⟨ha, rfl⟩ := obufWrite1_ok h1
      have hk := BufferKept.set (m := m) (top := pos + 1) ha (by omega) (digitByte (v % 10))
      split at h
      · exact (Except.ok.inj h) ▸ hk
      · exact hk.trans ((ih h).mono (by omega))

/-- The formatting core writes below `B` only. -/
theorem formatGroups_kept {n pos v : Nat} {m m' : Memory} (h : formatGroups n pos v m = .ok m') :
    BufferKept n pos m m' := by
  fun_induction formatGroups n pos v m with
  | case1 pos v m hv ih =>
    simp only [bind, Except.bind] at h
    split at h
    · simp at h
    · next m1 h1 =>
      obtain ⟨ha, rfl⟩ := obufWrite4_ok h1
      refine BufferKept.trans ?_ ((ih _ h).mono (by omega))
      exact (((BufferKept.set (by omega) (by omega) _).trans
        (BufferKept.set (by omega) (by omega) _)).trans
        (BufferKept.set (by omega) (by omega) _)).trans (BufferKept.set (by omega) (by omega) _)
  | case2 => exact formatFixup_kept h
  | case3 => simp at h
  | case4 => exact formatFixup_kept h

/-- The number and its sign are written below `B` only. -/
theorem placeNumber_kept {n B : Nat} {m m' : Memory} {v : SignMag} (hc : 1 ≤ v.count)
    (hB : v.count ≤ B) (h : placeNumber n m v B = .ok m') : BufferKept n B m m' := by
  unfold placeNumber at h
  simp only [bind, Except.bind] at h
  split at h
  · simp at h
  · next m1 h1 =>
    have hk := formatGroups_kept h1
    split at h
    · obtain ⟨ha, rfl⟩ := obufWrite1_ok h
      exact hk.trans (BufferKept.set ha (by omega) _)
    · exact (Except.ok.inj h) ▸ hk

/-- A digit count is at least the count the loop starts from. -/
theorem digitsLoop_ge (p n c : Nat) : c ≤ digitsLoop p n c := by
  induction p generalizing n c with
  | zero => exact Nat.le_refl c
  | succ p ih =>
    unfold digitsLoop
    repeat' split
    all_goals try omega
    exact Nat.le_trans (by omega) (ih _ _)

/-- "1 for 0, never 0" (R170). -/
theorem SignMag.count_pos (v : SignMag) : 1 ≤ v.count := by
  have := digitsLoop_ge 5 v.mag 1
  unfold SignMag.count digits10
  omega

/-- Everything FMT can answer (R176, R207). -/
theorem runFmt_cases {v : SignMag} {s t : State} (h : runFmt v s = .ok t) :
    (s.obufCap < s.olen.toNat ∧ t = s.raise .lenRange)
      ∨ (s.olen.toNat ≤ s.obufCap ∧ s.olen.toNat < v.count ∧ t = s.raise .bufSmall)
      ∨ (v.count ≤ s.olen.toNat ∧ s.olen.toNat ≤ s.obufCap
          ∧ ∃ m, placeNumber s.obufCap s.obuf v s.olen.toNat = .ok m
            ∧ t = State.complete { s with obuf := m, cnt := BitVec.ofNat 32 v.count }) := by
  unfold runFmt at h
  dsimp only at h
  split at h
  · next hl => exact .inl ⟨hl, (Except.ok.inj h).symm⟩
  · next hl =>
    split at h
    · next hc => exact .inr (.inl ⟨Nat.le_of_not_lt hl, hc, (Except.ok.inj h).symm⟩)
    · next hc =>
      simp only [bind, Except.bind, pure, Except.pure] at h
      split at h
      · simp at h
      · next m hm =>
        exact .inr (.inr ⟨Nat.le_of_not_lt hc, Nat.le_of_not_lt hl, m, hm, (Except.ok.inj h).symm⟩)

/-- Everything FMTA can answer (R178, R208). -/
theorem runFmta_cases {v : SignMag} {s t : State} (h : runFmta v s = .ok t) :
    ∃ m, placeNumber s.obufCap s.obuf v v.count = .ok m
      ∧ t = State.complete { s with
          olen := BitVec.ofNat 32 v.count, obuf := m, cnt := BitVec.ofNat 32 v.count } := by
  unfold runFmta at h
  simp only [bind, Except.bind, pure, Except.pure] at h
  split at h
  · simp at h
  · next m hm => exact ⟨m, hm, (Except.ok.inj h).symm⟩

end Sys2Proof.Machine
end

