-- ==== Sys2Proof/Laws/Parse.lean ====
section
/-! SUPPORT. What the parse sequence can answer, said once (spec/41_scalar_parse.md R150), and the
reads it makes. -/

namespace Sys2Proof.Machine

@[simp] theorem settle_ok (t : State) : settle (.ok t) = .next t := rfl
@[simp] theorem settle_error (f : Fault) : settle (.error f) = .fault f := rfl

theorem settle_next {x : Except Fault State} {t : State} : settle x = .next t ↔ x = .ok t := by
  cases x <;> simp [settle]

theorem settle_fault {x : Except Fault State} {f : Fault} : settle x = .fault f ↔ x = .error f := by
  cases x <;> simp [settle]

/-- A meaning never answers with a refusal. -/
theorem settle_not_refused (x : Except Fault State) (r : Refusal) : settle x ≠ .refused r := by
  cases x <;> simp [settle]

/-- The tables of an intact ROM have the lengths of R91. -/
theorem romTable_length {s : State} (h : s.rom = romContents) (w : Width) :
    (s.romTable w).length = tableLen w := by
  cases w <;> simp [State.romTable, h] <;> rfl

/-- A lookup inside the table answers. -/
theorem rom1_total {w : Width} {s : State} {i : Nat} (hr : s.rom = romContents)
    (h : i < tableLen w) : ∃ t, rom1 w s i = .ok t := by
  have hl : i < (s.romTable w).length := by rw [romTable_length hr]; exact h
  exact ⟨(s.romTable w)[i], by simp [rom1, List.getElem?_eq_getElem hl]⟩

theorem rom4_total {w : Width} {s : State} {i : Nat} (hr : s.rom = romContents)
    (h : i + 3 < tableLen w) : ∃ t, rom4 w s i = .ok t := by
  obtain ⟨t0, h0⟩ := rom1_total (w := w) hr (i := i) (by omega)
  obtain ⟨t1, h1⟩ := rom1_total (w := w) hr (i := i + 1) (by omega)
  obtain ⟨t2, h2⟩ := rom1_total (w := w) hr (i := i + 2) (by omega)
  obtain ⟨t3, h3⟩ := rom1_total (w := w) hr (i := i + 3) (by omega)
  exact ⟨⟨t0, t1, t2, t3⟩, by simp [rom4, h0, h1, h2, h3, bind, Except.bind, pure, Except.pure]⟩

@[simp] theorem ibufRead1_ok {s : State} {a : Nat} (h : a < s.ibufCap) :
    ibufRead1 s a = .ok (s.byte .ibuf a) := if_pos h

@[simp] theorem ibufRead4_ok {s : State} {a : Nat} (h : a + 4 ≤ s.ibufCap) :
    ibufRead4 s a = .ok ⟨s.byte .ibuf a, s.byte .ibuf (a + 1), s.byte .ibuf (a + 2), s.byte .ibuf (a + 3)⟩ :=
  if_pos h

/-- The sign test of a window inside the buffer answers. -/
theorem parseSign_ok {s : State} {L : Nat} (sg : Bool) (h : L ≤ s.ibufCap) :
    parseSign sg s L =
      .ok (if sg = true ∧ 1 ≤ L ∧ s.byte .ibuf 0 = asciiMinus then (true, 1) else (false, 0)) := by
  cases sg
  · simp [parseSign]
  · by_cases hL : 1 ≤ L
    · have : 0 < s.ibufCap := by omega
      simp [parseSign, signDetect, hL, this, bind, Except.bind, pure, Except.pure]
    · simp [parseSign, signDetect, hL]

/-- Everything a parse command can answer (R151, R152, R203, R204): it ends with one of the named
outcomes, or writes RES and completes; it writes nothing else. -/
theorem runParse_cases {eng : Engine} {sg : Bool} {pol : Policy} {w : Width} {s t : State}
    (h : runParse eng sg pol w s = .ok t) :
    (s.ibufCap < s.ilen.toNat ∧ t = s.raise .lenRange) ∨ t = s.raise pol.tooLong
      ∨ (∃ b, t = s.raise (.invalidDigit b))
      ∨ (∃ v : BitVec w.bits, t = State.complete { s with res := v.setWidth 64 }) := by
  unfold runParse at h
  dsimp only at h
  split at h
  · next hl => exact .inl ⟨hl, (Except.ok.inj h).symm⟩
  · next hl =>
    rw [parseSign_ok sg (Nat.le_of_not_lt hl)] at h
    simp only [bind, Except.bind, pure, Except.pure] at h
    generalize (if sg = true ∧ 1 ≤ s.ilen.toNat ∧ s.byte .ibuf 0 = asciiMinus
      then (true, 1) else (false, 0) : Bool × Nat) = p at h
    split at h
    · exact .inr (.inl (Except.ok.inj h).symm)
    · split at h
      · simp at h
      · next r _ =>
        have h' := (Except.ok.inj h).symm
        cases r with
        | ok v => exact .inr (.inr (.inr ⟨_, h'⟩))
        | invalid b => exact .inr (.inr (.inl ⟨b, h'⟩))

/-- A parse on the vector engine ends with F_ILLEGAL where the engine is absent, and otherwise answers
as `runParse` does. -/
theorem runVparse_cases {sg : Bool} {pol : Policy} {w : Width} {s t : State}
    (h : runVparse sg pol w s = .ok t) :
    (s.hasVec = false ∧ t = s.raise .illegal)
      ∨ (s.hasVec = true ∧ runParse .vector sg pol w s = .ok t) := by
  unfold runVparse at h
  split at h
  · next hv => exact .inr ⟨hv, h⟩
  · next hv => exact .inl ⟨by simpa using hv, (Except.ok.inj h).symm⟩

/-- The eight parse commands are one sequence with three switches. -/
theorem exec_parseInstr_scalar (sg : Bool) (pol : Policy) (w : Width) (s : State) :
    exec (decodeParse sg (decide (pol = .wrapping)) false w) s = settle (runParse .scalar sg pol w s) := by
  cases sg <;> cases pol <;> rfl

theorem exec_parseInstr_vector (sg : Bool) (pol : Policy) (w : Width) (s : State) :
    exec (decodeParse sg (decide (pol = .wrapping)) true w) s = settle (runVparse sg pol w s) := by
  cases sg <;> cases pol <;> rfl

/-- The remainder loop answers inside the window and the table (R145). -/
theorem parseTail_total {w : Width} {s : State} {rem idx cur : Nat} (acc : BitVec w.bits)
    (hr : s.rom = romContents) (hi : idx + rem ≤ tableLen w) (hc : cur + rem ≤ s.ibufCap) :
    ∃ r, parseTail w s rem idx cur acc = .ok r := by
  induction rem generalizing idx cur acc with
  | zero => exact ⟨_, rfl⟩
  | succ rem ih =>
    obtain ⟨t, ht⟩ := rom1_total (w := w) hr (i := idx) (by omega)
    simp only [parseTail, ibufRead1_ok (show cur < s.ibufCap by omega), bind, Except.bind]
    split
    · exact ⟨_, rfl⟩
    · rw [ht]
      exact ih _ (by omega) (by omega)

end Sys2Proof.Machine
end

