-- ==== Sys2Proof/Laws/Status.lean ====
section
/-! SUPPORT. How the two fields of STATUS answer to the writes of either (spec/10_state.md R22). -/

namespace Sys2Proof.Machine

@[simp] theorem statusCode_setCode (v : Word) (c : BitVec 4) : statusCode (statusSetCode v c) = c := by
  ext i hi
  have : i = 0 ∨ i = 1 ∨ i = 2 ∨ i = 3 := by omega
  rcases this with rfl | rfl | rfl | rfl <;> simp [statusCode, statusSetCode]

@[simp] theorem statusFlt_setCode (v : Word) (c : BitVec 4) :
    statusFlt (statusSetCode v c) = statusFlt v := by
  simp [statusFlt, statusSetCode]

@[simp] theorem statusFlt_setFlt (v : Word) : statusFlt (statusSetFlt v) = true := by
  simp [statusFlt, statusSetFlt]

@[simp] theorem statusCode_setFlt (v : Word) : statusCode (statusSetFlt v) = statusCode v := by
  ext i hi
  have : i = 0 ∨ i = 1 ∨ i = 2 ∨ i = 3 := by omega
  rcases this with rfl | rfl | rfl | rfl <;> simp [statusCode, statusSetFlt]

/-- Writing CODE leaves the 28 bits above it. -/
theorem statusSetCode_high (v : Word) (c : BitVec 4) {i : Nat} (h4 : 4 ≤ i) :
    (statusSetCode v c).getLsbD i = v.getLsbD i := by
  have hc : c.getLsbD i = false := BitVec.getLsbD_of_ge _ _ h4
  have hm : ∀ j : Fin 32, 4 ≤ j.val → (0xFFFFFFF0#32).getLsbD j.val = true := by decide
  by_cases h : i < 32
  · simp [statusSetCode, hc, h]
    exact fun _ => by simpa [h] using hm ⟨i, h⟩ h4
  · simp [BitVec.getLsbD_of_ge _ _ (Nat.le_of_not_lt h)]

/-- What an outcome leaves in CODE. -/
@[simp] theorem Err.statusCode_status (e : Err) (v : Word) : statusCode (e.status v) = e.code := by
  unfold Err.status
  split <;> simp

/-- An outcome sets FLT when it is a fault, and leaves it otherwise. -/
@[simp] theorem Err.statusFlt_status (e : Err) (v : Word) :
    statusFlt (e.status v) = (decide (8 ≤ e.code.toNat) || statusFlt v) := by
  unfold Err.status
  split <;> simp_all

/-- No error or fault has the code of success. -/
theorem Err.code_ne_zero (e : Err) : e.code ≠ 0 := by cases e <;> simp [Err.code]

end Sys2Proof.Machine
end

