-- ==== Sys2Proof/Laws/Host.lean ====
section
/-! SUPPORT. What one move of the host, one command and one step can do, said once
(spec/20_memory.md R60; spec/10_state.md R21). -/

namespace Sys2Proof.Machine

/-- The operand of a digit count or of a format: the low W bits of OPND, unsigned or signed. -/
abbrev IsOperand (v : SignMag) (s : State) : Prop :=
  ∃ w, v = unsignedOperand w s ∨ v = signedOperand w s

/-- A command is a parse, a digit count, a format or an exact format: every meaning through its one
shared sequence. -/
theorem exec_cases (i : Instr) (s : State) :
    (∃ eng sg pol w, exec i s = settle (runParse eng sg pol w s))
      ∨ (∃ sg pol w, exec i s = settle (runVparse sg pol w s))
      ∨ (∃ v, IsOperand v s ∧ exec i s = settle (runDcnt v s))
      ∨ (∃ v, IsOperand v s ∧ exec i s = settle (runFmt v s))
      ∨ (∃ v, IsOperand v s ∧ exec i s = settle (runFmta v s)) := by
  cases i
  case parseUChk w => exact .inl ⟨_, _, _, w, rfl⟩
  case parseUWrap w => exact .inl ⟨_, _, _, w, rfl⟩
  case parseSChk w => exact .inl ⟨_, _, _, w, rfl⟩
  case parseSWrap w => exact .inl ⟨_, _, _, w, rfl⟩
  case vparseUChk w => exact .inr (.inl ⟨_, _, w, rfl⟩)
  case vparseUWrap w => exact .inr (.inl ⟨_, _, w, rfl⟩)
  case vparseSChk w => exact .inr (.inl ⟨_, _, w, rfl⟩)
  case vparseSWrap w => exact .inr (.inl ⟨_, _, w, rfl⟩)
  case dcntU w => exact .inr (.inr (.inl ⟨_, ⟨w, .inl rfl⟩, rfl⟩))
  case dcntS w => exact .inr (.inr (.inl ⟨_, ⟨w, .inr rfl⟩, rfl⟩))
  case fmtU w => exact .inr (.inr (.inr (.inl ⟨_, ⟨w, .inl rfl⟩, rfl⟩)))
  case fmtS w => exact .inr (.inr (.inr (.inl ⟨_, ⟨w, .inr rfl⟩, rfl⟩)))
  case fmtaU w => exact .inr (.inr (.inr (.inr ⟨_, ⟨w, .inl rfl⟩, rfl⟩)))
  case fmtaS w => exact .inr (.inr (.inr (.inr ⟨_, ⟨w, .inr rfl⟩, rfl⟩)))

/-- Everything a command can answer: an outcome raised, or a success that writes RES, or CNT, or OBUF
and CNT, or OLEN, OBUF and CNT (R265, R266). -/
theorem exec_next_cases {i : Instr} {s t : State} (h : exec i s = .next t) :
    (∃ e, t = s.raise e)
      ∨ (∃ v, t = State.complete { s with res := v })
      ∨ (∃ v : SignMag, IsOperand v s ∧ t = State.complete { s with cnt := BitVec.ofNat 32 v.count })
      ∨ (∃ (v : SignMag) (m : Memory), IsOperand v s ∧ v.count ≤ s.olen.toNat ∧ s.olen.toNat ≤ s.obufCap
          ∧ placeNumber s.obufCap s.obuf v s.olen.toNat = .ok m
          ∧ t = State.complete { s with obuf := m, cnt := BitVec.ofNat 32 v.count })
      ∨ (∃ (v : SignMag) (m : Memory), IsOperand v s ∧ placeNumber s.obufCap s.obuf v v.count = .ok m
          ∧ t = State.complete { s with
              olen := BitVec.ofNat 32 v.count, obuf := m, cnt := BitVec.ofNat 32 v.count }) := by
  have parse {eng sg pol w} (hp : runParse eng sg pol w s = .ok t) :
      (∃ e, t = s.raise e) ∨ ∃ v, t = State.complete { s with res := v } := by
    rcases runParse_cases hp with ⟨-, h⟩ | h | ⟨b, h⟩ | ⟨v, h⟩
    · exact .inl ⟨_, h⟩
    · exact .inl ⟨_, h⟩
    · exact .inl ⟨_, h⟩
    · exact .inr ⟨_, h⟩
  rcases exec_cases i s with ⟨eng, sg, pol, w, he⟩ | ⟨sg, pol, w, he⟩ | ⟨v, hv, he⟩ | ⟨v, hv, he⟩ | ⟨v, hv, he⟩ <;>
    rw [he, settle_next] at h
  · rcases parse h with h | h
    · exact .inl h
    · exact .inr (.inl h)
  · rcases runVparse_cases h with ⟨-, h⟩ | ⟨-, h⟩
    · exact .inl ⟨_, h⟩
    · rcases parse h with h | h
      · exact .inl h
      · exact .inr (.inl h)
  · exact .inr (.inr (.inl ⟨v, hv, (Except.ok.inj h).symm⟩))
  · rcases runFmt_cases h with ⟨-, h⟩ | ⟨-, -, h⟩ | ⟨h1, h2, m, h3, h4⟩
    · exact .inl ⟨_, h⟩
    · exact .inl ⟨_, h⟩
    · exact .inr (.inr (.inr (.inl ⟨v, m, hv, h1, h2, h3, h4⟩)))
  · obtain ⟨m, h1, h2⟩ := runFmta_cases h
    exact .inr (.inr (.inr (.inr ⟨v, m, hv, h1, h2⟩)))

/-- A command is never refused. -/
theorem exec_not_refused (i : Instr) (s : State) (r : Refusal) : exec i s ≠ .refused r := by
  rcases exec_cases i s with ⟨_, _, _, _, he⟩ | ⟨_, _, _, he⟩ | ⟨_, -, he⟩ | ⟨_, -, he⟩ | ⟨_, -, he⟩ <;>
    rw [he] <;> exact settle_not_refused _ r

/-- What a command cannot touch: the registers only the host writes, CMD, CAP, IBUF, the ROM, and the
model's own fields. -/
structure CommandFrame (s t : State) : Prop where
  cmd : t.cmd = s.cmd
  cap : t.cap = s.cap
  ilen : t.ilen = s.ilen
  opnd : t.opnd = s.opnd
  ibuf : t.ibuf = s.ibuf
  rom : t.rom = s.rom
  epoch : t.epoch = s.epoch
  pending : t.pending = s.pending
  replies : t.replies = s.replies

theorem exec_commandFrame {i : Instr} {s t : State} (h : exec i s = .next t) : CommandFrame s t := by
  rcases exec_next_cases h with ⟨e, rfl⟩ | ⟨v, rfl⟩ | ⟨v, -, rfl⟩ | ⟨v, m, -, -, -, -, rfl⟩ | ⟨v, m, -, -, rfl⟩ <;>
    exact ⟨rfl, rfl, rfl, rfl, rfl, rfl, rfl, rfl, rfl⟩

/-- Everything a write of CMD can answer (R21, R262). -/
theorem commandWrite_next {c : Word} {s t : State} (h : commandWrite c s = .next t) :
    t = State.raise { s with cmd := c } .illegal
      ∨ ∃ i, decode s.hasVec c = .ok i ∧ exec i { s with cmd := c } = .next t := by
  unfold commandWrite at h
  dsimp only at h
  split at h
  · next i hi => exact .inr ⟨i, hi, h⟩
  · exact .inl (by simpa using h.symm)

/-- Everything a move of the host can answer with a next state (R60). -/
theorem hostMove_next {m : HostMove} {s t : State} (h : hostMove m s = .next t) :
    (∃ v, ((∃ i, m = .read i ∧ s.register i = some v)
          ∨ ∃ b a, m = .readByte b a ∧ a < s.capacity b ∧ v = .byte (s.byte b a))
        ∧ t = s.answer v)
      ∨ ((∃ i v, m = .write i v) ∧ t = s)
      ∨ (∃ c, m = .write 0 (.word32 c) ∧ commandWrite c s = .next t)
      ∨ (∃ v, m = .write 3 (.word32 v) ∧ t = { s with ilen := v })
      ∨ (∃ v, m = .write 4 (.word32 v) ∧ t = { s with olen := v })
      ∨ (∃ v, m = .write 5 (.word64 v) ∧ t = { s with opnd := v })
      ∨ (∃ b a v, m = .writeByte b a v ∧ a < s.capacity b ∧ t = s.setByte b a v)
      ∨ (m = .reset ∧ t = s.resetBlock) := by
  cases m with
  | read i =>
    simp only [hostMove, hostRead] at h
    split at h
    · next v hv => exact .inl ⟨v, .inl ⟨i, rfl, hv⟩, by simpa using h.symm⟩
    · simp at h
  | write i v =>
    cases v with
    | word32 v =>
      simp only [hostMove, hostWrite, hostWrite32] at h
      split at h
      · exact .inr (.inr (.inl ⟨v, rfl, h⟩))
      · exact .inr (.inr (.inr (.inl ⟨v, rfl, by simpa using h.symm⟩)))
      · exact .inr (.inr (.inr (.inr (.inl ⟨v, rfl, by simpa using h.symm⟩))))
      · simp at h
      · simp at h
      · split at h
        · exact .inr (.inl ⟨⟨_, _, rfl⟩, by simpa using h.symm⟩)
        · simp at h
    | word64 v =>
      simp only [hostMove, hostWrite, hostWrite64] at h
      split at h
      · exact .inr (.inr (.inr (.inr (.inr (.inl ⟨v, rfl, by simpa using h.symm⟩)))))
      · exact .inr (.inl ⟨⟨_, _, rfl⟩, by simpa using h.symm⟩)
      · split at h <;> simp at h
    | byte v =>
      simp only [hostMove, hostWrite] at h
      split at h <;> simp at h
  | readByte b a =>
    simp only [hostMove, hostReadByte] at h
    split at h
    · next ha => exact .inl ⟨_, .inr ⟨b, a, rfl, ha, rfl⟩, by simpa using h.symm⟩
    · simp at h
  | writeByte b a v =>
    simp only [hostMove, hostWriteByte] at h
    split at h
    · next ha => exact .inr (.inr (.inr (.inr (.inr (.inr (.inl ⟨b, a, v, rfl, ha, by simpa using h.symm⟩))))))
    · simp at h
  | reset => exact .inr (.inr (.inr (.inr (.inr (.inr (.inr ⟨rfl, by simpa [hostMove] using h.symm⟩))))))

/-- A step performs the oldest pending move, and takes it off the queue; with none, it does nothing. -/
theorem step_nil {s : State} (h : s.pending = []) : step s = .next s := by
  simp [step, nextEvent, h]

theorem step_cons {s : State} {m : HostMove} {rest : List HostMove} (h : s.pending = m :: rest) :
    step s = hostMove m { s with pending := rest } := by
  simp [step, nextEvent, h]

end Sys2Proof.Machine
end

