-- ==== Sys2Proof/Laws/PerInstr.lean ====
section
/-! SUPPORT. Statements about every command as syntax, one lemma per constructor. Family `TableRow`:
the word of a command lies in its row of the opcode table (spec/30_encoding.md R94: match and mask). -/

namespace Sys2Proof.Laws.TableRow

/-- The `match` column of R94 for a command. -/
def rowMatch : Instr → Word
  | .parseUChk _ => 0x00000001
  | .parseUWrap _ => 0x00000101
  | .parseSChk _ => 0x00000081
  | .parseSWrap _ => 0x00000181
  | .vparseUChk _ => 0x00000201
  | .vparseUWrap _ => 0x00000301
  | .vparseSChk _ => 0x00000281
  | .vparseSWrap _ => 0x00000381
  | .dcntU _ => 0x00000002
  | .dcntS _ => 0x00000082
  | .fmtU _ => 0x00000003
  | .fmtS _ => 0x00000083
  | .fmtaU _ => 0x00000004
  | .fmtaS _ => 0x00000084

/-- R94: "a word `c` selects the row when `c & mask = match` and its WSEL is at most 4". -/
def Statement (i : Instr) : Prop := encode i &&& 0xFFFFFF8F#32 = rowMatch i ∧ fieldWsel (encode i) ≤ 4

theorem parseUChk (w : Width) : Statement (.parseUChk w) := by cases w <;> exact ⟨rfl, by decide⟩
theorem parseUWrap (w : Width) : Statement (.parseUWrap w) := by cases w <;> exact ⟨rfl, by decide⟩
theorem parseSChk (w : Width) : Statement (.parseSChk w) := by cases w <;> exact ⟨rfl, by decide⟩
theorem parseSWrap (w : Width) : Statement (.parseSWrap w) := by cases w <;> exact ⟨rfl, by decide⟩
theorem vparseUChk (w : Width) : Statement (.vparseUChk w) := by cases w <;> exact ⟨rfl, by decide⟩
theorem vparseUWrap (w : Width) : Statement (.vparseUWrap w) := by cases w <;> exact ⟨rfl, by decide⟩
theorem vparseSChk (w : Width) : Statement (.vparseSChk w) := by cases w <;> exact ⟨rfl, by decide⟩
theorem vparseSWrap (w : Width) : Statement (.vparseSWrap w) := by cases w <;> exact ⟨rfl, by decide⟩
theorem dcntU (w : Width) : Statement (.dcntU w) := by cases w <;> exact ⟨rfl, by decide⟩
theorem dcntS (w : Width) : Statement (.dcntS w) := by cases w <;> exact ⟨rfl, by decide⟩
theorem fmtU (w : Width) : Statement (.fmtU w) := by cases w <;> exact ⟨rfl, by decide⟩
theorem fmtS (w : Width) : Statement (.fmtS w) := by cases w <;> exact ⟨rfl, by decide⟩
theorem fmtaU (w : Width) : Statement (.fmtaU w) := by cases w <;> exact ⟨rfl, by decide⟩
theorem fmtaS (w : Width) : Statement (.fmtaS w) := by cases w <;> exact ⟨rfl, by decide⟩

end Sys2Proof.Laws.TableRow
end

