-- ==== Sys2Proof/Tests/Slice0.lean ====
section
/-! SUPPORT. Tests of one step each on small states, with values from spec/95_test_vectors.md and the
worked examples of the rules; and, for every obligation with hypotheses, a state and operands that meet
them together. -/

namespace Sys2Proof.Tests

open Sys2Proof.Machine

/-! ## Builders -/

/-- Bytes placed from an offset on. -/
def placed : Nat → List Nat → Memory
  | _, [] => []
  | a, v :: rest => (a, BitVec.ofNat 8 v) :: placed (a + 1) rest

/-- After reset, with the bytes in IBUF and their number in ILEN. -/
def input (codes : List Nat) : State :=
  { State.reset with ilen := BitVec.ofNat 32 codes.length, ibuf := placed 0 codes }

/-- After reset, with an operand and OLEN, and OBUF pre-filled with twelve '*'. -/
def operandState (x len : Nat) : State :=
  { State.reset with
    opnd := BitVec.ofNat 64 x, olen := BitVec.ofNat 32 len, obuf := placed 0 (List.replicate 12 0x2A) }

/-- A block without the vector engine. -/
def noVec : State := State.resetWith Config.scalarCap

/-- A field of the next state. -/
def after {α : Type} (f : State → α) : Host.Outcome State Fault Refusal → Option α
  | .next t => some (f t)
  | .fault _ => none
  | .refused _ => none

/-- The next state, or a default. -/
def nextOf (s : State) : Host.Outcome State Fault Refusal → State
  | .next t => t
  | .fault _ => s
  | .refused _ => s

/-- A table entry as a number. -/
def entry (w : Width) (i : Nat) : Option Nat :=
  match rom1 w State.reset i with
  | .ok t => some t.toNat
  | .error _ => none

/-- The codes OBUF lists. -/
def text (s : State) : List Nat := s.obuf.map (fun c => c.2.toNat)

/-! ## WellFormed: its one check, on a term it refuses -/

theorem test_wellFormed_refuses_vector_without_engine :
    (Instr.vparseUChk .w8).wellFormed false = false ∧ (Instr.vparseUWrap .w8).wellFormed false = false
      ∧ (Instr.vparseSChk .w8).wellFormed false = false
      ∧ (Instr.vparseSWrap .w8).wellFormed false = false ∧ (Instr.vparseUChk .w8).wellFormed true = true
      ∧ (Instr.fmtU .w8).wellFormed false = true := by decide

/-! ## Decode: each constructor's word written out from R90 (RSV, ENG, POL, SGN, WSEL, OP) -/

theorem test_decode_parse_words :
    decode true 0b0000000000000000000000_0_0_0_011_0001#32 = .ok (.parseUChk .w64)
      ∧ decode true 0b0000000000000000000000_0_1_0_000_0001#32 = .ok (.parseUWrap .w8)
      ∧ decode true 0b0000000000000000000000_0_0_1_100_0001#32 = .ok (.parseSChk .word)
      ∧ decode true 0b0000000000000000000000_0_1_1_010_0001#32 = .ok (.parseSWrap .w32) := by decide

theorem test_decode_vparse_words :
    decode true 0b0000000000000000000000_1_0_0_000_0001#32 = .ok (.vparseUChk .w8)
      ∧ decode true 0b0000000000000000000000_1_1_0_001_0001#32 = .ok (.vparseUWrap .w16)
      ∧ decode true 0b0000000000000000000000_1_0_1_010_0001#32 = .ok (.vparseSChk .w32)
      ∧ decode true 0b0000000000000000000000_1_1_1_100_0001#32 = .ok (.vparseSWrap .word) := by decide

theorem test_decode_count_and_format_words :
    decode true 0b0000000000000000000000_0_0_0_010_0010#32 = .ok (.dcntU .w32)
      ∧ decode true 0b0000000000000000000000_0_0_1_001_0010#32 = .ok (.dcntS .w16)
      ∧ decode true 0b0000000000000000000000_0_0_0_000_0011#32 = .ok (.fmtU .w8)
      ∧ decode true 0b0000000000000000000000_0_0_1_011_0011#32 = .ok (.fmtS .w64)
      ∧ decode true 0b0000000000000000000000_0_0_0_100_0100#32 = .ok (.fmtaU .word)
      ∧ decode true 0b0000000000000000000000_0_0_1_000_0100#32 = .ok (.fmtaS .w8) := by decide

/-- 95 section 2.7. -/
theorem test_decode_rejects_by_name :
    decode true 0x00000000#32 = .error .noSuchOperation ∧ decode true 0x0000000F#32 = .error .noSuchOperation
      ∧ decode true 0x00000051#32 = .error .noSuchWidth ∧ decode true 0x000003D1#32 = .error .noSuchWidth
      ∧ decode true 0x00000103#32 = .error .policyOutsideParse
      ∧ decode true 0x00000204#32 = .error .engineOutsideParse
      ∧ decode true 0x00000401#32 = .error .reservedBits ∧ decode true 0x80000001#32 = .error .reservedBits
      ∧ decode false 0x00000201#32 = .error .vectorEngineAbsent := by decide

theorem test_decodeTableWord :
    decodeTableWord 32 0x3C1 = some (.vparseSWrap .word) ∧ decodeTableWord 32 0x51 = none := by decide

/-! ## One step or one command each -/

/-- 95 S1 and the row's word as the first command after reset. -/
theorem test_step_runs_presented_word :
    after (fun t => (t.cmd, t.status, t.res)) (step ((input [0x32, 0x35, 0x37]).withFetchWord 32 0x101))
      = some (0x101, 0, 1) := by decide

/-- 95 I1. -/
theorem test_step_zero_word_is_illegal :
    after (fun t => (t.cmd, t.status)) (step (State.reset.withFetchWord 32 0)) = some (0, 0x108) := by decide

/-- 95 U5, U10. -/
theorem test_parseUChk : after (fun t => (t.status, t.res)) (exec (.parseUChk .w8) (input [0x32, 0x35, 0x35]))
    = some (0, 0xFF) := by decide
theorem test_parseUChk_overflow :
    after (fun t => (t.status, t.res)) (exec (.parseUChk .w8) (input [0x31, 0x30, 0x30, 0x30]))
      = some (2, 0) := by decide

/-- 95 U15, U28. -/
theorem test_parseUWrap_bad_byte :
    after (fun t => (t.status, t.errb)) (exec (.parseUWrap .w8) (input [0x21, 0x32, 0x33]))
      = some (1, 0x21) := by decide
theorem test_parseUWrap_group_wraps :
    after (fun t => (t.status, t.res)) (exec (.parseUWrap .w16) (input [0x39, 0x39, 0x39, 0x39, 0x39]))
      = some (0, 0x869F) := by decide

/-- 95 G12, G5. -/
theorem test_parseSChk_minimum :
    after (fun t => (t.status, t.res)) (exec (.parseSChk .w8) (input [0x2D, 0x31, 0x32, 0x38]))
      = some (0, 0x80) := by decide
theorem test_parseSChk_second_minus :
    after (fun t => (t.status, t.errb)) (exec (.parseSChk .w8) (input [0x2D, 0x2D, 0x31]))
      = some (1, 0x2D) := by decide

/-- 95 G14, G18. -/
theorem test_parseSWrap :
    after (fun t => (t.status, t.res)) (exec (.parseSWrap .w8) (input [0x2D, 0x32, 0x30, 0x30]))
      = some (0, 0x38) := by decide
theorem test_parseSWrap_too_long :
    after (fun t => t.status) (exec (.parseSWrap .w8) (input [0x2D, 0x31, 0x30, 0x30, 0x30]))
      = some 0x10A := by decide

/-- R238's example: "12345678" at w32; and the block without the engine. -/
theorem test_vparseUChk :
    after (fun t => (t.status, t.res))
      (exec (.vparseUChk .w32) (input [0x31, 0x32, 0x33, 0x34, 0x35, 0x36, 0x37, 0x38]))
      = some (0, 0xBC614E) := by decide
theorem test_vparseUChk_absent :
    after (fun t => t.status) (exec (.vparseUChk .w8) noVec) = some 0x108 := by decide

/-- R239's example. -/
theorem test_vparseUWrap :
    after (fun t => (t.status, t.res)) (exec (.vparseUWrap .w16) (input [0x39, 0x39, 0x39, 0x39, 0x39]))
      = some (0, 0x869F) := by decide

/-- R240's example: groups from offset 1. -/
theorem test_vparseSChk :
    after (fun t => (t.status, t.res))
      (exec (.vparseSChk .w16) (input [0x2D, 0x33, 0x32, 0x37, 0x36, 0x38]))
      = some (0, 0x8000) := by decide

/-- R241's example: lane 2 is bad. -/
theorem test_vparseSWrap_bad_lane :
    after (fun t => (t.status, t.errb, t.res))
      (exec (.vparseSWrap .w16) (input [0x31, 0x32, 0x78, 0x34, 0x35]))
      = some (1, 0x78, 0) := by decide

/-- 95 N7, N9. -/
theorem test_dcntU_ignores_upper_bits :
    after (fun t => t.cnt) (exec (.dcntU .w8) (operandState 0x100 0)) = some 1 := by decide
theorem test_dcntU_second_pass :
    after (fun t => t.cnt) (exec (.dcntU .w16) (operandState 10000 0)) = some 5 := by decide

/-- 95 N24, N29. -/
theorem test_dcntS : after (fun t => t.cnt) (exec (.dcntS .w8) (operandState 0xFFFFFFFFFFFFFF80 0))
    = some 4 := by decide
theorem test_dcntS_minimum64 :
    after (fun t => t.cnt) (exec (.dcntS .w64) (operandState 0x8000000000000000 0)) = some 20 := by decide

/-- 95 F11, F10. -/
theorem test_fmtU : after (fun t => (t.cnt, text t)) (exec (.fmtU .w32) (operandState 1234567 10))
    = some (7, [0x2A, 0x2A, 0x2A, 0x31, 0x32, 0x33, 0x34, 0x35, 0x36, 0x37, 0x2A, 0x2A]) := by decide
theorem test_fmtU_small_buffer :
    after (fun t => (t.status, t.cnt, t.olen, text t)) (exec (.fmtU .w16) (operandState 65535 4))
      = some (0x10B, 0, 4, List.replicate 12 0x2A) := by decide

/-- 95 F17, F19. -/
theorem test_fmtS : after (fun t => (t.cnt, text t)) (exec (.fmtS .w8) (operandState 0x80 6))
    = some (4, [0x2A, 0x2A, 0x2D, 0x31, 0x32, 0x38, 0x2A, 0x2A, 0x2A, 0x2A, 0x2A, 0x2A]) := by decide
theorem test_fmtS_no_room_for_sign :
    after (fun t => t.status) (exec (.fmtS .w8) (operandState 0x80 3)) = some 0x10B := by decide

/-- 95 F29. -/
theorem test_fmtaU : after (fun t => (t.olen, t.cnt, text t)) (exec (.fmtaU .w8) (operandState 0x1FF 0))
    = some (3, 3, [0x32, 0x35, 0x35, 0x2A, 0x2A, 0x2A, 0x2A, 0x2A, 0x2A, 0x2A, 0x2A, 0x2A]) := by decide

/-- 95 F36. -/
theorem test_fmtaS : after (fun t => (t.olen, t.cnt, text t)) (exec (.fmtaS .w16) (operandState 0xFFFF 9))
    = some (2, 2, [0x2D, 0x31, 0x2A, 0x2A, 0x2A, 0x2A, 0x2A, 0x2A, 0x2A, 0x2A, 0x2A, 0x2A]) := by decide

/-- A byte nothing has written is the free value, before a Reset and after it (95 H9). -/
theorem test_unwritten_byte_is_free :
    State.reset.byte .obuf 0 = Config.unwrittenByte 0 .obuf 0
      ∧ State.reset.resetBlock.byte .obuf 0 = Config.unwrittenByte 1 .obuf 0 := ⟨rfl, rfl⟩

/-- A parse whose window holds an unwritten byte runs (R304). -/
theorem test_parse_of_unwritten_byte_runs :
    ∃ t, exec (.parseUChk .w8) { State.reset with ilen := 1 } = .next t := by
  have h : exec (.parseUChk .w8) { State.reset with ilen := 1 } =
      settle (do
        let r ← parseCore .w8 { State.reset with ilen := 1 } 0 1
        return parseEnd false { State.reset with ilen := 1 } r) := rfl
  obtain ⟨r, hr⟩ : ∃ r, parseCore .w8 { State.reset with ilen := 1 } 0 1 = .ok r :=
    parseTail_total (w := .w8) _ rfl (by decide) (by decide)
  rw [h, hr]
  exact ⟨_, rfl⟩

/-- R100: the drivers of `parse_signed` and `format` (95 P2, at w8). -/
theorem test_drivers :
    (match driveParseChecked .scalar true [0x2D#8, 0x31#8, 0x32#8, 0x38#8] .w8 State.reset with
      | .next (_, r) => some r
      | _ => none) = some (.ok 0x80#8)
    ∧ (match driveFormat true 0x80#64 .w8 State.reset with
      | .next (_, r) => some r
      | _ => none) = some (.ok [0x2D#8, 0x31#8, 0x32#8, 0x38#8]) := by decide

/-! ## Witnesses: the hypotheses of each obligation, met -/

theorem witness_StepRunsTheDecodedCommand :
    (State.reset.withFetchWord 32 0x022).pending = .write 0 (.word32 0x022#32) :: []
      ∧ decode (State.reset.withFetchWord 32 0x022).hasVec 0x022#32 = .ok (.dcntU .w32) := by decide

theorem witness_IllegalWordOnlyFaults : ∀ i, decode State.reset.hasVec 0#32 ≠ .ok i := by
  rw [show decode State.reset.hasVec 0#32 = .error .noSuchOperation by decide]
  exact fun i h => nomatch h

theorem witness_VectorCommandsFaultWithoutEngine : noVec.hasVec = false := by decide

theorem witness_StepPerformsTheOldestMove :
    ({ State.reset with pending := [.reset, .read 3] } : State).pending = .reset :: [.read 3] := rfl

theorem witness_IdleStepHoldsState : State.reset.pending = [] := rfl

theorem witness_StepTakesOneMoveInOrder :
    (after (fun t => (t.pending, t.replies)) (step { State.reset with pending := [.read 2, .reset] })
      = some ([.reset], [.word32 0x00202001#32]))
    ∧ (after (fun t => (t.pending, t.replies))
        (step { State.reset with pending := [.readByte .ibuf 31], ibuf := placed 31 [7] })
      = some ([], [.byte 7#8]))
    ∧ after (fun t => (t.pending, t.replies)) (step { State.reset with pending := [.reset, .read 2] })
      = some ([.read 2], []) := by decide

theorem witness_ReadOnlyWritesAreIgnored :
    ∀ i ∈ [1, 2, 7, 8, 9, 15], i = 1 ∨ i = 2 ∨ i = 7 ∨ i = 8 ∨ (9 ≤ i ∧ i ≤ 15) := by decide

theorem witness_AccessOutsideInterfaceIsRefused :
    15 < 16 ∧ State.reset.capacity .ibuf ≤ 32 ∧ State.reset.capacity .obuf ≤ 32 := by decide

/-- For HostReadByteAnswersTheByte and HostWriteByteChangesOneByte: the last byte of each buffer. -/
theorem witness_HostByteAccess :
    31 < State.reset.capacity .ibuf ∧ 31 < State.reset.capacity .obuf := by decide

/-- The least and the greatest capacities of R5, with and without the engine. -/
theorem witness_CapLegal :
    CapLegal Config.resetCap ∧ CapLegal 0x00141500#32 ∧ CapLegal 0x00FFFF01#32
      ∧ ¬ CapLegal 0x00131500#32 ∧ ¬ CapLegal 0x00141400#32 := by decide

theorem witness_InvariantHoldsAtReset : CapLegal Config.scalarCap := by decide

/-- A step that answers a next state; also for RomHoldsPowersOfTen. -/
theorem witness_CapIsConstant :
    step { State.reset with pending := [.reset] } = .next { State.reset with epoch := 1 } := rfl

theorem witness_StepKeepsInvariant :
    (State.reset.withFetchWord 32 0x034).Inv
      ∧ step (State.reset.withFetchWord 32 0x034)
        = .next (nextOf State.reset (step (State.reset.withFetchWord 32 0x034))) := ⟨by decide, rfl⟩

theorem witness_NoStepFaultsUnderLegalCap : CapLegal State.reset.cap ∧ State.reset.RomIntact := by decide

theorem witness_FaultBitIsStickyUntilReset :
    after (fun t => statusFlt t.status) (step { State.reset with status := 0x108, pending := [.read 1] })
        = some true
      ∧ after (fun t => statusFlt t.status) (step { State.reset with status := 0x108, pending := [.reset] })
        = some false := by decide

/-- A next state with a fault set and one without, for CommandSetsFaultBitByItsCode and
CommandsLeaveTheHostsOperands. -/
theorem witness_CommandStatements :
    after (fun t => t.status) (exec (.fmtU .w8) (operandState 255 2)) = some 0x10B
      ∧ after (fun t => t.status) (exec (.fmtU .w8) (operandState 255 3)) = some 0 := by decide

/-- CODE 2 and CODE 1. -/
theorem witness_ErrorsWriteOnlyStatusAndErrb :
    after (fun t => statusCode t.status) (exec (.parseUChk .w8) (input [0x31, 0x30, 0x30, 0x30])) = some 2
      ∧ after (fun t => statusCode t.status) (exec (.parseUChk .w8) (input [0x21])) = some 1 := by decide

/-- Two states that differ in everything a command must not look at. -/
theorem witness_NoHiddenState :
    let s₁ := input [0x37]
    let s₂ : State := { s₁ with cmd := 0x201, status := 0x10B, res := 5, cnt := 6, errb := 7
                                pending := [.reset], replies := [.byte 1] }
    s₁.cap = s₂.cap ∧ s₁.rom = s₂.rom ∧ s₁.ilen = s₂.ilen ∧ s₁.olen = s₂.olen ∧ s₁.opnd = s₂.opnd
      ∧ (∀ b a, s₁.byte b a = s₂.byte b a)
      ∧ after (fun t => t.res) (exec (.parseUChk .w8) s₁) = some 7
      ∧ after (fun t => t.res) (exec (.parseUChk .w8) s₂) = some 7 :=
  ⟨rfl, rfl, rfl, rfl, rfl, fun b a => by cases b <;> rfl, by decide, by decide⟩

/-- First, last and first absent index of the table of width 8, and the top of the one of width 64. -/
theorem witness_RomHoldsPowersOfTen :
    State.reset.RomIntact ∧ entry .w8 0 = some 100 ∧ entry .w8 1 = some 10 ∧ entry .w8 2 = some 1
      ∧ entry .w8 3 = none ∧ entry .w64 0 = some 10000000000000000000 := by decide

theorem witness_IsDigit :
    IsDigit 0x30#8 ∧ IsDigit 0x39#8 ∧ ¬ IsDigit 0x2F#8 ∧ ¬ IsDigit 0x3A#8 := by decide

theorem witness_NegationWrapsAndKeepsTheMinimum :
    (0#8 : BitVec Width.w8.bits) = 0 ∧ (0x80#8 : BitVec Width.w8.bits).toNat = 2 ^ (Width.w8.bits - 1)
      ∧ (0x7F#8 : BitVec Width.w8.bits).toNat ≠ 2 ^ (Width.w8.bits - 1) := by decide

/-- R171's boundaries. -/
theorem witness_IsDigitCount :
    IsDigitCount 1 0 ∧ IsDigitCount 1 9 ∧ IsDigitCount 2 10 ∧ IsDigitCount 4 9999 ∧ IsDigitCount 5 10000
      ∧ IsDigitCount 20 18446744073709551615 ∧ ¬ IsDigitCount 2 9 := by decide

/-- The empty string, the longest of width 8, and a bad byte in the middle. -/
theorem witness_ParseCoreClosedForm :
    (input [0x39, 0x39, 0x39]).RomIntact ∧ 3 ≤ tableLen .w8 ∧ 0 + 3 ≤ (input [0x39, 0x39, 0x39]).ibufCap
      ∧ (∀ j < 3, IsDigit ((input [0x39, 0x39, 0x39]).byte .ibuf (0 + j)))
      ∧ (∀ j < 0, IsDigit ((input []).byte .ibuf (0 + j)))
      ∧ FirstInvalidAt (fun j => (input [0x31, 0x78, 0x79]).byte .ibuf (0 + j)) 3 1 := by decide

/-- The exact fit, and the largest window. -/
theorem witness_FormatCoreWritesTheDigits :
    IsDigitCount 3 (0xFF#8 : BitVec Width.w8.bits).toNat ∧ 3 ≤ 3 ∧ 3 ≤ 32 ∧ 32 ≤ 32 := by decide

/-- The engine is present: also for VectorUnsignedParseOfDigitsCompletes and
VectorCommandsEqualScalarCommands. -/
theorem witness_UnsignedParseOfDigitsCompletes :
    let s := input [0x39, 0x39, 0x39]
    s.RomIntact ∧ s.hasVec = true ∧ s.inputLen ≤ s.ibufCap ∧ s.inputLen ≤ tableLen .w8
      ∧ (∀ j < s.inputLen, IsDigit (s.byte .ibuf j))
      ∧ after (fun t => t.res) (exec (.parseUChk .w8) s)
        = some (BitVec.ofNat 64 (decimalSum (s.byte .ibuf) s.inputLen % 2 ^ Width.w8.bits)) := by decide

/-- With a sign (three digits, four bytes), without one, and a sign alone; the engine is present: also
for VectorSignedParseOfDigitsCompletes. -/
theorem witness_SignedParseOfDigitsCompletes :
    (∀ s ∈ [input [0x2D, 0x31, 0x32, 0x38], input [0x32, 0x30, 0x30], input [0x2D]],
      s.RomIntact ∧ s.hasVec = true ∧ s.inputLen ≤ s.ibufCap ∧ s.digitLen true ≤ tableLen .w8
        ∧ ∀ j < s.digitLen true, IsDigit (s.digitAt true j))
    ∧ (input [0x2D, 0x31, 0x32, 0x38]).HasMinus ∧ ¬ (input [0x32, 0x30, 0x30]).HasMinus := by decide

theorem witness_ParseBeyondTheBufferIsLenRange :
    let s : State := { State.reset with ilen := 33 }
    s.ibufCap < s.inputLen ∧ s.hasVec = true := by decide

theorem witness_TooManyDigitsEndTheParseByPolicy :
    let u := input [0x31, 0x30, 0x30, 0x30]
    let s := input [0x2D, 0x31, 0x30, 0x30, 0x30]
    u.inputLen ≤ u.ibufCap ∧ tableLen .w8 < u.digitLen false ∧ u.hasVec = true
      ∧ s.inputLen ≤ s.ibufCap ∧ tableLen .w8 < s.digitLen true
      ∧ ¬ tableLen .w8 < (input [0x2D, 0x31, 0x30, 0x30]).digitLen true := by decide

theorem witness_FirstInvalidByteIsReported :
    let u := input [0x31, 0x78, 0x79]
    let s := input [0x2D, 0x31, 0x2D]
    u.RomIntact ∧ u.inputLen ≤ u.ibufCap ∧ u.digitLen false ≤ tableLen .w8
      ∧ FirstInvalidAt (u.digitAt false) (u.digitLen false) 1
      ∧ s.RomIntact ∧ s.inputLen ≤ s.ibufCap ∧ s.digitLen true ≤ tableLen .w8
      ∧ FirstInvalidAt (s.digitAt true) (s.digitLen true) 1 := by decide

theorem witness_ParseFrame :
    exec (.vparseUChk .w8) (input [0x37])
      = .next (nextOf State.reset (exec (.vparseUChk .w8) (input [0x37]))) := rfl

/-- A window of two bytes, and another byte after it. -/
theorem witness_BytesBeyondTheWindowAreIgnored :
    let s := input [0x34, 0x32]
    (∀ a < s.inputLen, ({ s with ibuf := placed 0 [0x34, 0x32, 0x21] } : State).byte .ibuf a = s.byte .ibuf a)
      ∧ after (fun t => t.res) (exec (.parseUChk .w8) s) = some 42 := by decide

/-- Zero, the unsigned maximum, a negative operand and a positive one; also for
SignedDigitCountAndItsRange. -/
theorem witness_DigitCountCompletes :
    IsDigitCount 1 ((operandState 0 0).opndNat .w8) ∧ IsDigitCount 3 ((operandState 0xFF 0).opndNat .w8)
      ∧ (operandState 0x80 0).OpndNeg .w8 ∧ IsDigitCount 3 ((operandState 0x80 0).opndMag .w8)
      ∧ ¬ (operandState 0x7F 0).OpndNeg .w8 ∧ IsDigitCount 3 ((operandState 0x7F 0).opndMag .w8) := by decide

/-- The exact fit and the whole buffer. -/
theorem witness_UnsignedFormatCompletes :
    IsDigitCount 3 ((operandState 255 3).opndNat .w8) ∧ 3 ≤ (operandState 255 3).olen.toNat
      ∧ (operandState 255 32).olen.toNat ≤ (operandState 255 32).obufCap := by decide

theorem witness_SignedFormatCompletes :
    let s := operandState 0x80 4
    IsDigitCount 3 (s.opndMag .w8) ∧ s.OpndNeg .w8 ∧ 3 + 1 ≤ s.olen.toNat ∧ s.olen.toNat ≤ s.obufCap
      ∧ ¬ (operandState 0x7F 3).OpndNeg .w8 := by decide

/-- For UnsignedExactFormatCompletes and SignedExactFormatCompletes. -/
theorem witness_ExactFormatCompletes :
    let s := operandState 0x8000000000000000 0
    CapLegal s.cap ∧ IsDigitCount 19 (s.opndNat .w64) ∧ IsDigitCount 19 (s.opndMag .w64)
      ∧ s.OpndNeg .w64 := by decide

theorem witness_FormatWindowFaults :
    (operandState 1 33).obufCap < (operandState 1 33).olen.toNat
      ∧ IsDigitCount 3 ((operandState 255 2).opndNat .w8) ∧ (operandState 255 2).olen.toNat < 3
      ∧ IsDigitCount 3 ((operandState 0x80 3).opndMag .w8) ∧ (operandState 0x80 3).OpndNeg .w8
      ∧ (operandState 0x80 3).olen.toNat < 3 + 1 := by decide

/-- A next state of each of the six commands, for DigitCountFrame, FormatFrame and ExactFormatFrame. -/
theorem witness_CountAndFormatFrames :
    ∀ i ∈ [Instr.dcntU .w8, .dcntS .w8, .fmtU .w8, .fmtS .w8, .fmtaU .w8, .fmtaS .w8],
      after (fun t => t.status) (exec i (operandState 0x80 4)) = some 0 := by decide

theorem witness_UpperOperandBitsAreIgnored :
    (0x1FF#64).toNat % 2 ^ Width.w8.bits = (operandState 0xFF 3).opndNat .w8
      ∧ after (fun t => t.cnt) (exec (.fmtU .w8) (operandState 0xFF 3)) = some 3 := by decide

/-- FMTA of 200 and of -128, and an input that is the text: for UnsignedFormatThenParse and
SignedFormatThenParse. -/
theorem witness_FormatThenParse :
    let s := operandState 0xC8 0
    let t := nextOf s (exec (.fmtaU .w8) s)
    let u : State := { State.reset with ilen := t.olen, ibuf := t.obuf }
    let s' := operandState 0x80 0
    let t' := nextOf s' (exec (.fmtaS .w8) s')
    let u' : State := { State.reset with ilen := t'.olen, ibuf := t'.obuf }
    exec (.fmtaU .w8) s = .next t ∧ u.RomIntact ∧ u.ilen = t.olen ∧ u.inputLen ≤ u.ibufCap
      ∧ (∀ j < u.inputLen, u.byte .ibuf j = t.byte .obuf j)
      ∧ exec (.fmtaS .w8) s' = .next t' ∧ u'.RomIntact ∧ u'.ilen = t'.olen ∧ u'.inputLen ≤ u'.ibufCap
      ∧ (∀ j < u'.inputLen, u'.byte .ibuf j = t'.byte .obuf j) :=
  ⟨rfl, rfl, rfl, by decide, by decide, rfl, rfl, rfl, by decide, by decide⟩

/-- "042" and "-05", and the leading zeros of "0" and of "000". -/
theorem witness_ParseThenFormatIsTheText :
    let s := input [0x30, 0x34, 0x32]
    let t := nextOf s (exec (.parseUChk .w8) s)
    let u : State := { State.reset with opnd := t.res }
    let s' := input [0x2D, 0x30, 0x35]
    let t' := nextOf s' (exec (.parseSChk .w8) s')
    s.RomIntact ∧ u.opnd = t.res ∧ CapLegal u.cap ∧ s.inputLen ≤ tableLen .w8
      ∧ (∀ j < s.inputLen, IsDigit (s.byte .ibuf j)) ∧ LeadingZeros (s.byte .ibuf) s.inputLen 1
      ∧ decimalSum (s.byte .ibuf) s.inputLen < 2 ^ Width.w8.bits
      ∧ exec (.parseUChk .w8) s = .next t ∧ statusCode t.status = 0
      ∧ s'.RomIntact ∧ s'.digitLen true ≤ tableLen .w8
      ∧ (∀ j < s'.digitLen true, IsDigit (s'.digitAt true j))
      ∧ LeadingZeros (s'.digitAt true) (s'.digitLen true) 1 ∧ s'.HasMinus
      ∧ decimalSum (s'.digitAt true) (s'.digitLen true) < 2 ^ (Width.w8.bits - 1)
      ∧ exec (.parseSChk .w8) s' = .next t' ∧ statusCode t'.status = 0
      ∧ LeadingZeros ((input [0x30]).byte .ibuf) 1 0
      ∧ LeadingZeros ((input [0x30, 0x30, 0x30]).byte .ibuf) 3 2 :=
  ⟨rfl, rfl, by decide, by decide, by decide, by decide, by decide, rfl, by decide, rfl, by decide,
    by decide, by decide, by decide, by decide, rfl, by decide, by decide, by decide⟩

/-- The signed minimum "-128", at the edge of the range, and "-0", which loses its sign. -/
theorem witness_ParseThenFormatIsTheText_edges :
    let s := input [0x2D, 0x31, 0x32, 0x38]
    s.HasMinus ∧ decimalSum (s.digitAt true) (s.digitLen true) = 2 ^ (Width.w8.bits - 1)
      ∧ LeadingZeros (s.digitAt true) (s.digitLen true) 0
      ∧ (input [0x2D, 0x30]).HasMinus
      ∧ LeadingZeros ((input [0x2D, 0x30]).digitAt true) ((input [0x2D, 0x30]).digitLen true) 0 := by decide

theorem witness_DriverParsesDigits :
    CapLegal State.reset.cap ∧ State.reset.RomIntact ∧ [0x32#8, 0x35#8, 0x37#8].length ≤ tableLen .w8
      ∧ (∀ b ∈ [0x32#8, 0x35#8, 0x37#8], IsDigit b)
      ∧ State.reset.ibufCap < (List.replicate 33 0x31#8).length := by decide

end Sys2Proof.Tests
end

/-! PROOF. No hidden state (spec/10_state.md R40): two states that agree on what R40 names run every
command alike. A parse reads IBUF and the ROM through functions that are equal at both states; a
format writes the same digits over OBUFs that read alike, so the two results read alike again. -/

namespace Sys2Proof.Machine

/-! ## The two relations -/

/-- What R40 lets a command depend on is the same in both states. -/
structure SameInputs (s₁ s₂ : State) : Prop where
  cap : s₁.cap = s₂.cap
  rom : s₁.rom = s₂.rom
  ilen : s₁.ilen = s₂.ilen
  olen : s₁.olen = s₂.olen
  opnd : s₁.opnd = s₂.opnd
  byte : ∀ b a, s₁.byte b a = s₂.byte b a

/-- A command wrote the same into both states: `t₁` after `s₁` and `t₂` after `s₂` (R40). -/
structure SameWrites (s₁ s₂ t₁ t₂ : State) : Prop where
  code : statusCode t₁.status = statusCode t₂.status
  olen : t₁.olen = t₂.olen
  byte : ∀ b a, t₁.byte b a = t₂.byte b a
  res : t₁.res = t₂.res ∨ (t₁.res = s₁.res ∧ t₂.res = s₂.res)
  cnt : t₁.cnt = t₂.cnt ∨ (t₁.cnt = s₁.cnt ∧ t₂.cnt = s₂.cnt)
  errb : t₁.errb = t₂.errb ∨ (t₁.errb = s₁.errb ∧ t₂.errb = s₂.errb)

/-- Two runs fault alike, or both answer and the answers are related. -/
inductive SameResult {α : Type} (R : α → α → Prop) : Except Fault α → Except Fault α → Prop
  | ok {x y : α} (h : R x y) : SameResult R (.ok x) (.ok y)
  | error (f : Fault) : SameResult R (.error f) (.error f)

theorem SameResult.bind {α β : Type} {R : α → α → Prop} {Q : β → β → Prop} {x y : Except Fault α}
    {k l : α → Except Fault β} (h : SameResult R x y)
    (hk : ∀ a b, R a b → SameResult Q (k a) (l b)) :
    SameResult Q (x >>= k) (y >>= l) := by
  cases h with
  | ok h => exact hk _ _ h
  | error f => exact .error f

/-- After one and the same first part, the two runs need only continue alike. -/
theorem SameResult.bind_same {α β : Type} {Q : β → β → Prop} (x : Except Fault α)
    {k l : α → Except Fault β} (hk : ∀ a, SameResult Q (k a) (l a)) :
    SameResult Q (x >>= k) (x >>= l) := by
  cases x with
  | ok a => exact hk a
  | error f => exact .error f

/-! ## Parsing: equal reads -/

section reads
variable {s₁ s₂ : State} (h : SameInputs s₁ s₂)
include h

theorem SameInputs.hasVec_eq : s₁.hasVec = s₂.hasVec := congrArg capHasVec h.cap

theorem SameInputs.ibufCap_eq : s₁.ibufCap = s₂.ibufCap := congrArg capIbuf h.cap

theorem SameInputs.obufCap_eq : s₁.obufCap = s₂.obufCap := congrArg capObuf h.cap

theorem SameInputs.ibufRead1_eq : ibufRead1 s₁ = ibufRead1 s₂ := by
  funext a; simp only [ibufRead1, h.ibufCap_eq, h.byte]

theorem SameInputs.ibufRead4_eq : ibufRead4 s₁ = ibufRead4 s₂ := by
  funext a; simp only [ibufRead4, h.ibufCap_eq, h.byte]

theorem SameInputs.rom1_eq (w : Width) : rom1 w s₁ = rom1 w s₂ := by
  have ht : s₁.romTable w = s₂.romTable w := by cases w <;> simp only [State.romTable, h.rom]
  funext i; simp only [rom1, ht]

theorem SameInputs.rom4_eq (w : Width) : rom4 w s₁ = rom4 w s₂ := by
  funext i; simp only [rom4, h.rom1_eq]

theorem SameInputs.parseSign_eq (sg : Bool) (L : Nat) : parseSign sg s₁ L = parseSign sg s₂ L := by
  simp only [parseSign, signDetect, h.ibufRead1_eq]

theorem SameInputs.parseTail_eq (w : Width) (rem idx cur : Nat) (acc : BitVec w.bits) :
    parseTail w s₁ rem idx cur acc = parseTail w s₂ rem idx cur acc := by
  induction rem generalizing idx cur acc with
  | zero => rfl
  | succ rem ih => simp only [parseTail, h.ibufRead1_eq, h.rom1_eq, ih]

theorem SameInputs.parseGroups_eq (w : Width) (rem idx cur : Nat) (acc : BitVec w.bits) :
    parseGroups w s₁ rem idx cur acc = parseGroups w s₂ rem idx cur acc := by
  fun_induction parseGroups w s₁ rem idx cur acc with
  | case1 rem idx cur acc ih => simp only [parseGroups, h.ibufRead4_eq, h.rom4_eq, ih]
  | case2 rem idx cur acc hrem => rw [parseGroups, h.parseTail_eq]; exact hrem

theorem SameInputs.vparseGroups_eq (w : Width) (rem idx cur : Nat) (acc : BitVec w.bits) :
    vparseGroups w s₁ rem idx cur acc = vparseGroups w s₂ rem idx cur acc := by
  fun_induction vparseGroups w s₁ rem idx cur acc with
  | case1 rem idx cur acc ih => simp only [vparseGroups, v4ld, h.ibufRead4_eq, h.rom4_eq, ih]
  | case2 rem idx cur acc hrem => rw [vparseGroups, h.parseTail_eq]; exact hrem

theorem SameInputs.core_eq (eng : Engine) (w : Width) (off len : Nat) :
    eng.core w s₁ off len = eng.core w s₂ off len := by
  cases eng with
  | scalar => exact h.parseGroups_eq w len _ off 0
  | vector => exact h.vparseGroups_eq w len _ off 0

/-! ## How a command ends -/

/-- `raise` writes CODE and, for an invalid digit, ERRB (R266). -/
theorem SameInputs.raise_sameWrites (e : Err) : SameWrites s₁ s₂ (s₁.raise e) (s₂.raise e) where
  code := by simp
  olen := h.olen
  byte := by simpa using h.byte
  res := .inr ⟨rfl, rfl⟩
  cnt := .inr ⟨rfl, rfl⟩
  errb := by cases e <;> simp [Err.errb]

/-- A parse that ends with `r` writes RES, or raises INVALID_DIGIT (R151, R203). -/
theorem SameInputs.parseEnd_sameWrites {n : Nat} (neg : Bool) (r : ParseResult n) :
    SameWrites s₁ s₂ (parseEnd neg s₁ r) (parseEnd neg s₂ r) := by
  cases r with
  | ok v =>
    exact {
      code := by simp [parseEnd]
      olen := h.olen
      byte := h.byte
      res := .inl rfl
      cnt := .inr ⟨rfl, rfl⟩
      errb := .inr ⟨rfl, rfl⟩ }
  | invalid b => exact h.raise_sameWrites (.invalidDigit b)

/-- The end of every parse command (R264). -/
theorem SameInputs.runParse_sameResult (eng : Engine) (sg : Bool) (pol : Policy) (w : Width) :
    SameResult (SameWrites s₁ s₂) (runParse eng sg pol w s₁) (runParse eng sg pol w s₂) := by
  simp only [runParse, h.ibufCap_eq, h.ilen, h.parseSign_eq, h.core_eq]
  split
  · exact .ok (h.raise_sameWrites _)
  · refine .bind_same _ fun (neg, off) => ?_
    dsimp only
    split
    · exact .ok (h.raise_sameWrites _)
    · exact .bind_same _ fun r => .ok (h.parseEnd_sameWrites neg r)

theorem SameInputs.runVparse_sameResult (sg : Bool) (pol : Policy) (w : Width) :
    SameResult (SameWrites s₁ s₂) (runVparse sg pol w s₁) (runVparse sg pol w s₂) := by
  simp only [runVparse, h.hasVec_eq]
  split
  · exact h.runParse_sameResult .vector sg pol w
  · exact .ok (h.raise_sameWrites _)

/-- A digit count writes CNT (R175, R206). -/
theorem SameInputs.runDcnt_sameResult {v₁ v₂ : SignMag} (hv : v₁ = v₂) :
    SameResult (SameWrites s₁ s₂) (runDcnt v₁ s₁) (runDcnt v₂ s₂) := by
  subst hv
  exact .ok {
    code := by simp
    olen := h.olen
    byte := h.byte
    res := .inr ⟨rfl, rfl⟩
    cnt := .inl rfl
    errb := .inr ⟨rfl, rfl⟩ }

end reads

/-! ## Formatting: the same bytes written over OBUFs that read alike -/

/-- OBUF as `m₁` in `s₁` and as `m₂` in `s₂` has the same byte at every offset. -/
def SameObuf (s₁ s₂ : State) (m₁ m₂ : Memory) : Prop :=
  ∀ a, State.byte { s₁ with obuf := m₁ } .obuf a = State.byte { s₂ with obuf := m₂ } .obuf a

/-- A byte of OBUF after a write. -/
theorem State.byte_obuf_set (s : State) (m : Memory) (a x : Nat) (v : Byte) :
    State.byte { s with obuf := m.set a v } .obuf x
      = if x = a then v else State.byte { s with obuf := m } .obuf x := by
  by_cases h : x = a
  · simp [State.byte, State.memory, h]
  · simp [State.byte, State.memory, Memory.get?_set_other m v h, h]

section writes
variable {s₁ s₂ : State} {m₁ m₂ : Memory}

theorem SameObuf.set (h : SameObuf s₁ s₂ m₁ m₂) (a : Nat) (v : Byte) :
    SameObuf s₁ s₂ (m₁.set a v) (m₂.set a v) := fun x => by
  simp only [State.byte_obuf_set, h x]

theorem SameObuf.obufWrite1_sameResult (h : SameObuf s₁ s₂ m₁ m₂) (n a : Nat) (v : Byte) :
    SameResult (SameObuf s₁ s₂) (obufWrite1 n m₁ a v) (obufWrite1 n m₂ a v) := by
  unfold obufWrite1
  split
  · exact .ok (h.set a v)
  · exact .error _

theorem SameObuf.obufWrite4_sameResult (h : SameObuf s₁ s₂ m₁ m₂) (n a : Nat) (v : Lanes Byte) :
    SameResult (SameObuf s₁ s₂) (obufWrite4 n m₁ a v) (obufWrite4 n m₂ a v) := by
  unfold obufWrite4
  split
  · exact .ok ((((h.set _ _).set _ _).set _ _).set _ _)
  · exact .error _

theorem SameObuf.formatFixup_sameResult (h : SameObuf s₁ s₂ m₁ m₂) (n pos v : Nat) :
    SameResult (SameObuf s₁ s₂) (formatFixup n pos v m₁) (formatFixup n pos v m₂) := by
  induction pos generalizing v m₁ m₂ with
  | zero => exact .error _
  | succ pos ih =>
    refine (h.obufWrite1_sameResult n pos _).bind fun m₁' m₂' h' => ?_
    split
    · exact .ok h'
    · exact ih h' _

theorem SameObuf.formatGroups_sameResult (h : SameObuf s₁ s₂ m₁ m₂) (n pos v : Nat) :
    SameResult (SameObuf s₁ s₂) (formatGroups n pos v m₁) (formatGroups n pos v m₂) := by
  fun_induction formatGroups n pos v m₁ generalizing m₂ with
  | case1 pos v m₁ hv ih =>
    rw [formatGroups, if_pos hv]
    exact (h.obufWrite4_sameResult n pos _).bind fun m₁' m₂' h' => ih m₁' h'
  | case2 pos v m₁ hv =>
    rw [formatGroups, if_neg hv]
    exact h.formatFixup_sameResult n _ v
  | case3 pos v m₁ hpos hv =>
    rw [formatGroups, if_pos hv]
    · exact .error _
    · exact hpos
  | case4 pos v m₁ hpos hv =>
    rw [formatGroups, if_neg hv]
    · exact h.formatFixup_sameResult n pos v
    · exact hpos

theorem SameObuf.placeNumber_sameResult (h : SameObuf s₁ s₂ m₁ m₂) (n : Nat) (v : SignMag)
    (B : Nat) :
    SameResult (SameObuf s₁ s₂) (placeNumber n m₁ v B) (placeNumber n m₂ v B) := by
  refine (h.formatGroups_sameResult n B v.mag).bind fun m₁' m₂' h' => ?_
  split
  · exact h'.obufWrite1_sameResult n _ _
  · exact .ok h'

/-- A format ends with OLEN, OBUF and CNT written (R176, R178); for FMT the OLEN it had. -/
theorem SameInputs.format_sameWrites (h : SameInputs s₁ s₂) (hm : SameObuf s₁ s₂ m₁ m₂)
    (l c : Word) :
    SameWrites s₁ s₂ (State.complete { s₁ with olen := l, obuf := m₁, cnt := c })
      (State.complete { s₂ with olen := l, obuf := m₂, cnt := c }) where
  code := by simp
  olen := rfl
  byte
    | .ibuf, a => h.byte .ibuf a
    | .obuf, a => hm a
  res := .inr ⟨rfl, rfl⟩
  cnt := .inl rfl
  errb := .inr ⟨rfl, rfl⟩

theorem SameInputs.runFmt_sameResult (h : SameInputs s₁ s₂) {v₁ v₂ : SignMag} (hv : v₁ = v₂) :
    SameResult (SameWrites s₁ s₂) (runFmt v₁ s₁) (runFmt v₂ s₂) := by
  subst hv
  have hm : SameObuf s₁ s₂ s₁.obuf s₂.obuf := h.byte .obuf
  simp only [runFmt, h.obufCap_eq, h.olen]
  split
  · exact .ok (h.raise_sameWrites _)
  · split
    · exact .ok (h.raise_sameWrites _)
    · exact (hm.placeNumber_sameResult _ _ _).bind fun _ _ h' => .ok (h.format_sameWrites h' _ _)

theorem SameInputs.runFmta_sameResult (h : SameInputs s₁ s₂) {v₁ v₂ : SignMag} (hv : v₁ = v₂) :
    SameResult (SameWrites s₁ s₂) (runFmta v₁ s₁) (runFmta v₂ s₂) := by
  subst hv
  have hm : SameObuf s₁ s₂ s₁.obuf s₂.obuf := h.byte .obuf
  simp only [runFmta, h.obufCap_eq]
  exact (hm.placeNumber_sameResult _ _ _).bind fun _ _ h' => .ok (h.format_sameWrites h' _ _)

end writes

/-! ## Every command -/

section commands
variable {s₁ s₂ : State} (h : SameInputs s₁ s₂)
include h

theorem SameInputs.operand_eq (w : Width) : operand w s₁ = operand w s₂ := by
  rw [operand, h.opnd, operand]

theorem SameInputs.unsignedOperand_eq (w : Width) :
    unsignedOperand w s₁ = unsignedOperand w s₂ := by
  rw [unsignedOperand, h.operand_eq, unsignedOperand]

theorem SameInputs.signedOperand_eq (w : Width) : signedOperand w s₁ = signedOperand w s₂ := by
  rw [signedOperand, h.operand_eq, signedOperand]

/-- At both states a command is a meaning's result, and the two results are the same (R40). -/
theorem SameInputs.exec_sameResult (i : Instr) :
    ∃ x₁ x₂, exec i s₁ = settle x₁ ∧ exec i s₂ = settle x₂
      ∧ SameResult (SameWrites s₁ s₂) x₁ x₂ := by
  cases i with
  | parseUChk w => exact ⟨_, _, rfl, rfl, h.runParse_sameResult ..⟩
  | parseUWrap w => exact ⟨_, _, rfl, rfl, h.runParse_sameResult ..⟩
  | parseSChk w => exact ⟨_, _, rfl, rfl, h.runParse_sameResult ..⟩
  | parseSWrap w => exact ⟨_, _, rfl, rfl, h.runParse_sameResult ..⟩
  | vparseUChk w => exact ⟨_, _, rfl, rfl, h.runVparse_sameResult ..⟩
  | vparseUWrap w => exact ⟨_, _, rfl, rfl, h.runVparse_sameResult ..⟩
  | vparseSChk w => exact ⟨_, _, rfl, rfl, h.runVparse_sameResult ..⟩
  | vparseSWrap w => exact ⟨_, _, rfl, rfl, h.runVparse_sameResult ..⟩
  | dcntU w => exact ⟨_, _, rfl, rfl, h.runDcnt_sameResult (h.unsignedOperand_eq w)⟩
  | dcntS w => exact ⟨_, _, rfl, rfl, h.runDcnt_sameResult (h.signedOperand_eq w)⟩
  | fmtU w => exact ⟨_, _, rfl, rfl, h.runFmt_sameResult (h.unsignedOperand_eq w)⟩
  | fmtS w => exact ⟨_, _, rfl, rfl, h.runFmt_sameResult (h.signedOperand_eq w)⟩
  | fmtaU w => exact ⟨_, _, rfl, rfl, h.runFmta_sameResult (h.unsignedOperand_eq w)⟩
  | fmtaS w => exact ⟨_, _, rfl, rfl, h.runFmta_sameResult (h.signedOperand_eq w)⟩

end commands

/-- Settles O28: the two runs have the same result, so they fault alike, answer alike, and the next
states hold the same writes. -/
theorem noHiddenState : Obligations.NoHiddenState := by
  intro i s₁ s₂ hcap hrom hilen holen hopnd hbyte
  have hs : SameInputs s₁ s₂ := ⟨hcap, hrom, hilen, holen, hopnd, hbyte⟩
  obtain ⟨x₁, x₂, h₁, h₂, hsame⟩ := hs.exec_sameResult i
  rw [h₁, h₂]
  cases hsame with
  | error f => simp
  | ok hw =>
    refine ⟨by simp, by simp, fun t₁ t₂ ht₁ ht₂ => ?_⟩
    obtain rfl := Except.ok.inj (settle_next.1 ht₁)
    obtain rfl := Except.ok.inj (settle_next.1 ht₂)
    exact ⟨hw.code, hw.olen, hw.byte, hw.res, hw.cnt, hw.errb⟩

end Sys2Proof.Machine

/-! PROOF. WSEL (spec/30_encoding.md R91): the width and the table length it selects, and that the
word-sized type is the 64-bit one under another name. Both have 64 bits and read the ROM's 64-bit
table (R34), so the ROM lookup, the engines and the operands are equal, and the commands with them. -/

namespace Sys2Proof.Machine

/-! ## The shared operations at the word-sized width -/

section word
variable (s : State)

theorem unsignedOperand_word : unsignedOperand .word s = unsignedOperand .w64 s := rfl

theorem signedOperand_word : signedOperand .word s = signedOperand .w64 s := rfl

theorem tooLong_word (len : Nat) : tooLong .word len = tooLong .w64 len := rfl

theorem romTable_word : s.romTable .word = s.romTable .w64 := rfl

theorem rom1_word (i : Nat) : rom1 .word s i = rom1 .w64 s i := by
  simp only [rom1, romTable_word]
  cases (s.romTable .w64)[i]? <;> rfl

theorem rom4_word (i : Nat) : rom4 .word s i = rom4 .w64 s i := by
  simp only [rom4, rom1_word]

theorem parseTail_word (rem idx cur : Nat) (acc : DWord) :
    parseTail .word s rem idx cur acc = parseTail .w64 s rem idx cur acc := by
  induction rem generalizing idx cur acc with
  | zero => rfl
  | succ rem ih => simp only [parseTail, rom1_word, ih]

theorem parseGroups_word (rem idx cur : Nat) (acc : DWord) :
    parseGroups .word s rem idx cur acc = parseGroups .w64 s rem idx cur acc := by
  fun_induction parseGroups .w64 s rem idx cur acc with
  | case1 rem idx cur acc ih => simp only [parseGroups, rom4_word, ih]
  | case2 rem idx cur acc hrem => rw [parseGroups, parseTail_word]; exact hrem

theorem vparseGroups_word (rem idx cur : Nat) (acc : DWord) :
    vparseGroups .word s rem idx cur acc = vparseGroups .w64 s rem idx cur acc := by
  fun_induction vparseGroups .w64 s rem idx cur acc with
  | case1 rem idx cur acc ih => simp only [vparseGroups, rom4_word, ih]
  | case2 rem idx cur acc hrem => rw [vparseGroups, parseTail_word]; exact hrem

theorem Engine.core_word (eng : Engine) (off len : Nat) :
    eng.core .word s off len = eng.core .w64 s off len := by
  cases eng with
  | scalar => exact parseGroups_word s len _ off 0
  | vector => exact vparseGroups_word s len _ off 0

theorem runParse_word (eng : Engine) (sg : Bool) (pol : Policy) :
    runParse eng sg pol .word s = runParse eng sg pol .w64 s := by
  simp only [runParse, tooLong_word, Engine.core_word]

theorem runVparse_word (sg : Bool) (pol : Policy) :
    runVparse sg pol .word s = runVparse sg pol .w64 s := by
  simp only [runVparse, runParse_word]

end word

/-- R91: no width is selected by 5 or more. -/
theorem decodeWidth_eq_none {n : Nat} (h : 5 ≤ n) : decodeWidth n = none := by
  match n, h with
  | n + 5, _ => rfl

/-- Settles O4: the two tables of R91 by evaluation, and each command from the meaning it shares
with its 64-bit form. -/
theorem widthSelectGivesWidthAndTableLength : Obligations.WidthSelectGivesWidthAndTableLength := by
  refine ⟨by decide, by decide, ⟨rfl, rfl, rfl, rfl, rfl, fun _ => decodeWidth_eq_none⟩, fun s => ?_⟩
  have hp eng sg pol := congrArg settle (runParse_word s eng sg pol)
  have hv sg pol := congrArg settle (runVparse_word s sg pol)
  have hu (run : SignMag → State → Except Fault State) :=
    congrArg (fun v => settle (run v s)) (unsignedOperand_word s)
  have hs (run : SignMag → State → Except Fault State) :=
    congrArg (fun v => settle (run v s)) (signedOperand_word s)
  exact ⟨hp .scalar false .checked, hp .scalar false .wrapping,
    hp .scalar true .checked, hp .scalar true .wrapping,
    hv false .checked, hv false .wrapping, hv true .checked, hv true .wrapping,
    hu runDcnt, hs runDcnt, hu runFmt, hs runFmt, hu runFmta, hs runFmta⟩

end Sys2Proof.Machine

/-! PROOF. The digit decoder and the wrapping negation (spec/40_arithmetic_and_digit_decoder.md R123,
R127), and the byte a parse reports (R130): neither the groups of four nor the vector engine change
what the single-byte loop answers, and that loop stops at the first invalid byte. -/

namespace Sys2Proof.Machine

/-! ## The digit decoder -/

/-- R127: the subtraction of 0x30 modulo 256, as a number. -/
theorem digitDecode_toNat (b : Byte) : (digitDecode b).toNat = (b.toNat + 256 - 0x30) % 256 := by
  have hsub : (digitDecode b).toNat = (256 - 0x30 + b.toNat) % 256 := BitVec.toNat_sub b asciiZero
  omega

theorem digitInvalid_eq_true {b : Byte} : digitInvalid b = true ↔ 9 < (digitDecode b).toNat :=
  decide_eq_true_iff

/-- R127: the bytes below '0' wrap to 208 and more, those above '9' decode to 10 and more. -/
theorem digitInvalid_eq_false {b : Byte} : digitInvalid b = false ↔ IsDigit b := by
  have hb : b.toNat < 256 := b.isLt
  rw [← Bool.not_eq_true, digitInvalid_eq_true, digitDecode_toNat]
  omega

theorem digitDecode_toNat_of_isDigit {b : Byte} (h : IsDigit b) :
    (digitDecode b).toNat = b.toNat - 0x30 := by
  rw [digitDecode_toNat]
  omega

/-- Settles O30, from the value of the decoded digit. -/
theorem digitDecoderAcceptsExactlyTheDigits : Obligations.DigitDecoderAcceptsExactlyTheDigits :=
  fun b => ⟨digitDecode_toNat b, digitInvalid_eq_true, digitInvalid_eq_false,
    digitDecode_toNat_of_isDigit⟩

/-! ## Wrapping negation -/

theorem bits_pos (w : Width) : 0 < w.bits := by cases w <;> decide

theorem negw_eq_neg {n : Nat} (a : BitVec n) : negw a = -a := BitVec.zero_sub a

/-- 2^(W-1), the pattern of the smallest signed number (R123). -/
theorem toNat_eq_two_pow_iff_intMin {n : Nat} (hn : 0 < n) (a : BitVec n) :
    a.toNat = 2 ^ (n - 1) ↔ a = BitVec.intMin n := by
  rw [← BitVec.toNat_inj, BitVec.toNat_intMin_of_pos hn]

/-- Settles O31: negation leaves the minimum as it is, and is exact on every other number. -/
theorem negationWrapsAndKeepsTheMinimum : Obligations.NegationWrapsAndKeepsTheMinimum := by
  intro w a
  have hmin := toNat_eq_two_pow_iff_intMin (bits_pos w) a
  refine ⟨?_, rfl, ?_, fun h => ?_, fun h => ?_⟩
  · rw [negw_eq_neg, BitVec.toNat_neg]
  · rintro rfl
    exact BitVec.sub_zero 0
  · rw [negw_eq_neg, hmin.1 h, BitVec.neg_intMin]
  · rw [negw_eq_neg, BitVec.toInt_neg_of_ne_intMin (mt hmin.2 h)]

/-! ## One answer for every grouping and engine -/

/-- R237 for one group: the lane mask reports the byte at which the scalar chain stops. -/
theorem vparseGroups_eq_parseGroups (w : Width) (s : State) (rem idx cur : Nat) (acc : BitVec w.bits) :
    vparseGroups w s rem idx cur acc = parseGroups w s rem idx cur acc := by
  fun_induction parseGroups w s rem idx cur acc with
  | case1 rem idx cur acc ih =>
    rw [vparseGroups]
    refine congrArg (ibufRead4 s cur >>= ·) (funext fun b => ?_)
    have hany : anyLane (v4gt9 (v4sub b)) =
        (digitInvalid b.l0 || digitInvalid b.l1 || digitInvalid b.l2 || digitInvalid b.l3) := rfl
    have hbyte : reportedByte b (v4gt9 (v4sub b)) = if digitInvalid b.l0 then b.l0
        else if digitInvalid b.l1 then b.l1 else if digitInvalid b.l2 then b.l2 else b.l3 := rfl
    dsimp only
    rw [hany, hbyte]
    cases digitInvalid b.l0
    case true => rfl
    cases digitInvalid b.l1
    case true => rfl
    cases digitInvalid b.l2
    case true => rfl
    cases digitInvalid b.l3
    case true => rfl
    exact congrArg (rom4 w s idx >>= ·) (funext fun t => ih b t)
  | case2 rem idx cur acc hrem => rw [vparseGroups]; exact hrem

/-- R141, R142: a group step adds what four remainder steps add. -/
theorem acc4_eq_acc1 {n : Nat} (acc : BitVec n) (d : Lanes Byte) (t : Lanes (BitVec n)) :
    acc4 acc d t = acc1 (acc1 (acc1 (acc1 acc d.l0 t.l0) d.l1 t.l1) d.l2 t.l2) d.l3 t.l3 := by
  simp only [acc4, acc1, BitVec.add_assoc]

/-- One remainder step inside the window and the table (R143). -/
theorem parseTail_succ {w : Width} {s : State} {idx cur : Nat} {t : BitVec w.bits} (rem : Nat)
    (acc : BitVec w.bits) (ht : rom1 w s idx = .ok t) (hc : cur < s.ibufCap) :
    parseTail w s (rem + 1) idx cur acc =
      if digitInvalid (s.byte .ibuf cur) then .ok (.invalid (s.byte .ibuf cur))
      else parseTail w s rem (idx + 1) (cur + 1) (acc1 acc (digitDecode (s.byte .ibuf cur)) t) := by
  rw [parseTail, ibufRead1_ok hc, ht]
  rfl

/-- Inside the window and the table (R145) the group loop answers as the single-byte loop does: the
chain of a group stops where four remainder steps stop, and `Acc4` adds what they add. -/
theorem parseGroups_eq_parseTail {w : Width} {s : State} {rem idx cur : Nat} (acc : BitVec w.bits)
    (hr : s.RomIntact) (hi : idx + rem ≤ tableLen w) (hc : cur + rem ≤ s.ibufCap) :
    parseGroups w s rem idx cur acc = parseTail w s rem idx cur acc := by
  fun_induction parseGroups w s rem idx cur acc with
  | case1 rem idx cur acc ih =>
    obtain ⟨t0, h0⟩ := rom1_total (w := w) hr (i := idx) (by omega)
    obtain ⟨t1, h1⟩ := rom1_total (w := w) hr (i := idx + 1) (by omega)
    obtain ⟨t2, h2⟩ := rom1_total (w := w) hr (i := idx + 2) (by omega)
    obtain ⟨t3, h3⟩ := rom1_total (w := w) hr (i := idx + 3) (by omega)
    have h4 : rom4 w s idx = .ok ⟨t0, t1, t2, t3⟩ := by rw [rom4, h0, h1, h2, h3]; rfl
    rw [ibufRead4_ok (show cur + 4 ≤ s.ibufCap by omega), h4,
      parseTail_succ _ _ h0 (by omega), parseTail_succ _ _ h1 (by omega),
      parseTail_succ _ _ h2 (by omega), parseTail_succ _ _ h3 (by omega)]
    refine if_congr Iff.rfl rfl (if_congr Iff.rfl rfl (if_congr Iff.rfl rfl (if_congr Iff.rfl rfl ?_)))
    exact (ih _ _ (by omega) (by omega)).trans (congrArg _ (acc4_eq_acc1 ..))
  | case2 rem idx cur acc hrem => rfl

/-- Behind a leading digit the first invalid byte stays the first. -/
theorem firstInvalidAt_tail {c : Nat → Byte} {len j : Nat} (h : FirstInvalidAt c (len + 1) (j + 1)) :
    FirstInvalidAt (fun k => c (k + 1)) len j := by
  obtain ⟨hlt, hbad, hgood⟩ := h
  exact ⟨by omega, hbad, fun i hi => hgood (i + 1) (by omega)⟩

/-- R143: the single-byte loop stops at the first invalid byte. -/
theorem parseTail_firstInvalid {w : Width} {s : State} {rem idx cur j : Nat} (acc : BitVec w.bits)
    (hr : s.RomIntact) (hi : idx + rem ≤ tableLen w) (hc : cur + rem ≤ s.ibufCap)
    (hj : FirstInvalidAt (fun k => s.byte .ibuf (cur + k)) rem j) :
    parseTail w s rem idx cur acc = .ok (.invalid (s.byte .ibuf (cur + j))) := by
  induction rem generalizing idx cur acc j with
  | zero => exact absurd hj.1 (Nat.not_lt_zero j)
  | succ rem ih =>
    have ⟨_, hbad, hgood⟩ := hj
    obtain ⟨t, ht⟩ := rom1_total (w := w) hr (i := idx) (by omega)
    rw [parseTail_succ _ _ ht (by omega)]
    cases j with
    | zero => exact if_pos (by simpa [← digitInvalid_eq_false] using hbad)
    | succ j =>
      have hdigit : digitInvalid (s.byte .ibuf cur) = false :=
        digitInvalid_eq_false.2 (hgood 0 (by omega))
      have hshift (k : Nat) : cur + 1 + k = cur + (k + 1) := by omega
      rw [if_neg (by simp [hdigit]), ← hshift j]
      exact ih _ (by omega) (by omega) (by simpa only [hshift] using firstInvalidAt_tail hj)

/-- R130, R144: both engines report the first invalid byte of the digit string. -/
theorem Engine.core_firstInvalid (eng : Engine) {w : Width} {s : State} {off len j : Nat}
    (hr : s.RomIntact) (hlen : len ≤ tableLen w) (hc : off + len ≤ s.ibufCap)
    (hj : FirstInvalidAt (fun k => s.byte .ibuf (off + k)) len j) :
    eng.core w s off len = .ok (.invalid (s.byte .ibuf (off + j))) := by
  have hi : tableLen w - len + len ≤ tableLen w := by omega
  have hscalar : parseGroups w s len (tableLen w - len) off 0 = _ :=
    (parseGroups_eq_parseTail 0 hr hi hc).trans (parseTail_firstInvalid 0 hr hi hc hj)
  cases eng with
  | scalar => exact hscalar
  | vector => exact (vparseGroups_eq_parseGroups ..).trans hscalar

/-! ## The parse commands -/

/-- R150, R201: the sign of a window inside the buffer, in the spec's words. -/
theorem parseSign_eq {s : State} (sg : Bool) (hL : s.inputLen ≤ s.ibufCap) :
    parseSign sg s s.inputLen = .ok (decide (sg = true ∧ s.HasMinus), s.digitOff sg) := by
  rw [parseSign_ok sg hL]
  by_cases h : sg = true ∧ s.HasMinus
  · exact congrArg Except.ok ((if_pos h).trans (by simp [h]))
  · exact congrArg Except.ok ((if_neg h).trans (by simp [h]))

/-- R150: a parse whose window fits the buffer and whose digit string fits the table ends with what the
core returns for the digit string. -/
theorem runParse_eq_of_core {eng : Engine} {sg : Bool} {w : Width} {s : State}
    {r : ParseResult w.bits} (pol : Policy) (hL : s.inputLen ≤ s.ibufCap)
    (hlen : s.digitLen sg ≤ tableLen w)
    (hr : eng.core w s (s.digitOff sg) (s.digitLen sg) = .ok r) :
    runParse eng sg pol w s = .ok (parseEnd (decide (sg = true ∧ s.HasMinus)) s r) := by
  have hfits : ¬ tooLong w (s.digitLen sg) = true := by simpa [tooLong] using hlen
  rw [runParse, parseSign_eq sg hL]
  refine (if_neg (Nat.not_lt.2 hL)).trans ((if_neg hfits).trans ?_)
  rw [hr]
  rfl

/-- The sign is part of the window. -/
theorem digitOff_add_digitLen (s : State) (sg : Bool) : s.digitOff sg + s.digitLen sg = s.inputLen := by
  have hoff : s.digitOff sg ≤ s.inputLen := by
    by_cases h : sg = true ∧ s.HasMinus
    · exact (if_pos h).le.trans h.2.1
    · exact (if_neg h).le.trans (Nat.zero_le _)
  exact Nat.add_sub_cancel' hoff

theorem runVparse_of_hasVec {s : State} (h : s.hasVec = true) (sg : Bool) (pol : Policy) (w : Width) :
    runVparse sg pol w s = runParse .vector sg pol w s := if_pos h

/-- R266: what `raise INVALID_DIGIT` writes. -/
theorem State.raise_invalidDigit (s : State) (b : Byte) :
    s.raise (.invalidDigit b) =
      { s with status := statusWith s.status 1#32, errb := BitVec.ofNat 32 b.toNat } := by
  simp [State.raise, Err.status, Err.code, Err.errb, statusSetCode]

/-- R130, R146, R147: whichever engine, signedness and policy, a parse reports the first invalid byte. -/
theorem runParse_firstInvalid (eng : Engine) {sg : Bool} (pol : Policy) {w : Width} {s : State} {j : Nat}
    (hr : s.RomIntact) (hL : s.inputLen ≤ s.ibufCap) (hlen : s.digitLen sg ≤ tableLen w)
    (hj : FirstInvalidAt (s.digitAt sg) (s.digitLen sg) j) :
    runParse eng sg pol w s = .ok { s with
      status := statusWith s.status 1#32, errb := BitVec.ofNat 32 (s.digitAt sg j).toNat } := by
  have hwindow : s.digitOff sg + s.digitLen sg ≤ s.ibufCap := (digitOff_add_digitLen s sg).trans_le hL
  rw [runParse_eq_of_core pol hL hlen (eng.core_firstInvalid hr hlen hwindow hj), parseEnd,
    State.raise_invalidDigit]

/-- Settles O43: the eight commands are `runParse` under its switches. -/
theorem firstInvalidByteIsReported : Obligations.FirstInvalidByteIsReported := by
  intro w s hr hL
  refine ⟨fun j hlen hj => ?_, fun j hlen hj => ?_⟩
  all_goals
    have hrun eng pol := congrArg settle (runParse_firstInvalid eng pol hr hL hlen hj)
    have hvec (hv : s.hasVec = true) pol :=
      (congrArg settle (runVparse_of_hasVec hv _ pol w)).trans (hrun .vector pol)
    exact ⟨hrun .scalar .checked, hrun .scalar .wrapping, fun hv => ⟨hvec hv .checked, hvec hv .wrapping⟩⟩

end Sys2Proof.Machine

/-! PROOF. The closed form of the accumulation core (spec/41_scalar_parse.md R144), and the length test
of the parse commands (R146, R148, R149). The single-byte loop adds one term of the decimal sum per
step, because the table entry it meets is the power of ten of the digit's place (R35 to R38). -/

namespace Sys2Proof.Machine

/-! ## The decimal sum and the powers of ten -/

@[simp] theorem decimalSum_zero (c : Nat → Byte) : decimalSum c 0 = 0 := rfl

/-- R144: the first digit has the highest power, the others are a digit string of their own. -/
theorem decimalSum_succ (c : Nat → Byte) (len : Nat) :
    decimalSum c (len + 1) =
      ((c 0).toNat - 0x30) * 10 ^ len + decimalSum (fun j => c (j + 1)) len := by
  have hexp (j : Nat) : len - 1 - j = len - (j + 1) := by omega
  simp [decimalSum, List.range_succ_eq_map, Function.comp_def, hexp]

/-- R35 to R38: the tables in closed form. -/
theorem romTable_eq_powers {s : State} (hr : s.RomIntact) (w : Width) :
    s.romTable w =
      (List.range (tableLen w)).map (fun i => BitVec.ofNat w.bits (10 ^ (tableLen w - 1 - i))) := by
  cases w <;> rw [State.romTable, hr] <;> decide

/-- R126: entry `i` of a table, counted from the end, is a power of ten. -/
theorem rom1_eq_power {w : Width} {s : State} {i k : Nat} (hr : s.RomIntact)
    (h : i + (k + 1) = tableLen w) : rom1 w s i = .ok (BitVec.ofNat w.bits (10 ^ k)) := by
  have hi : i < tableLen w := by omega
  have hk : tableLen w - 1 - i = k := by omega
  simp [rom1, romTable_eq_powers hr, hi, hk]

/-! ## The closed form of the core -/

/-- R142: a remainder step on a digit adds the digit times the table entry. -/
theorem acc1_digit {n : Nat} (acc : BitVec n) {b : Byte} (h : IsDigit b) (p : Nat) :
    acc1 acc (digitDecode b) (BitVec.ofNat n p) = acc + BitVec.ofNat n ((b.toNat - 0x30) * p) := by
  rw [acc1, ← BitVec.ofNat_toNat, digitDecode_toNat_of_isDigit h, BitVec.ofNat_mul]

/-- R143, R144: the single-byte loop adds the decimal sum of the bytes left, once the index has as far
to the end of the table as the cursor to the end of the string. -/
theorem parseTail_digits {w : Width} {s : State} {rem idx cur : Nat} (acc : BitVec w.bits)
    (hr : s.RomIntact) (hi : idx + rem = tableLen w) (hc : cur + rem ≤ s.ibufCap)
    (hd : ∀ j < rem, IsDigit (s.byte .ibuf (cur + j))) :
    parseTail w s rem idx cur acc =
      .ok (.ok (acc + BitVec.ofNat w.bits (decimalSum (fun j => s.byte .ibuf (cur + j)) rem))) := by
  induction rem generalizing idx cur acc with
  | zero => simp [parseTail]
  | succ rem ih =>
    have hdigit : IsDigit (s.byte .ibuf cur) := hd 0 (by omega)
    have hshift (k : Nat) : cur + 1 + k = cur + (k + 1) := by omega
    have hrest : ∀ j < rem, IsDigit (s.byte .ibuf (cur + 1 + j)) := fun j hj => by
      simpa only [hshift] using hd (j + 1) (by omega)
    rw [parseTail_succ _ _ (rom1_eq_power hr hi) (by omega),
      if_neg (by simp [digitInvalid_eq_false.2 hdigit]), acc1_digit _ hdigit,
      ih _ (by omega) (by omega) hrest, decimalSum_succ, BitVec.ofNat_add, BitVec.add_assoc]
    simp only [hshift, Nat.add_zero]

/-- R144, R237: on digits both engines return the decimal value modulo 2^W. -/
theorem Engine.core_digits (eng : Engine) {w : Width} {s : State} {off len : Nat}
    (hr : s.RomIntact) (hlen : len ≤ tableLen w) (hc : off + len ≤ s.ibufCap)
    (hd : ∀ j < len, IsDigit (s.byte .ibuf (off + j))) :
    eng.core w s off len =
      .ok (.ok (BitVec.ofNat w.bits
        (decimalSum (fun j => s.byte .ibuf (off + j)) len % 2 ^ w.bits))) := by
  have hi : tableLen w - len + len = tableLen w := by omega
  have hmod (x : Nat) : (0 : BitVec w.bits) + BitVec.ofNat w.bits x = BitVec.ofNat w.bits (x % 2 ^ w.bits) :=
    BitVec.eq_of_toNat_eq (by simp)
  have hscalar : parseGroups w s len (tableLen w - len) off 0 = _ :=
    (parseGroups_eq_parseTail 0 hr hi.le hc).trans (parseTail_digits 0 hr hi hc hd)
  rw [hmod] at hscalar
  cases eng with
  | scalar => exact hscalar
  | vector => exact (vparseGroups_eq_parseGroups ..).trans hscalar

/-- Settles O33: the scalar engine's core on digits, and at the first byte that is none. -/
theorem parseCoreClosedForm : Obligations.ParseCoreClosedForm :=
  fun _ _ _ _ hr hlen hc =>
    ⟨Engine.scalar.core_digits hr hlen hc, fun _ => Engine.scalar.core_firstInvalid hr hlen hc⟩

/-! ## The length test -/

/-- R148, R150: a digit string longer than the table ends a parse before the core runs. -/
theorem runParse_tooLong (eng : Engine) {sg : Bool} (pol : Policy) {w : Width} {s : State}
    (hL : s.inputLen ≤ s.ibufCap) (hlen : tableLen w < s.digitLen sg) :
    runParse eng sg pol w s = .ok (s.raise pol.tooLong) := by
  rw [runParse, parseSign_eq sg hL]
  exact (if_neg (Nat.not_lt.2 hL)).trans (if_pos (decide_eq_true hlen))

/-- R266: what `raise OVERFLOW` writes. -/
theorem State.raise_overflow (s : State) : s.raise .overflow = s.ended 2#32 := rfl

/-- R266: what `raise F_WRAP_LEN` writes. -/
theorem State.raise_wrapLen (s : State) : s.raise .wrapLen = s.ended 0x10A#32 := by
  have hstatus : Err.wrapLen.status s.status = statusWith s.status 0x10A#32 := BitVec.or_assoc ..
  rw [State.raise, hstatus]
  rfl

/-- R146, R148, R149: one signedness of a digit string longer than the table, under each policy and on
each engine. -/
theorem settle_parse_tooLong {sg : Bool} {w : Width} {s : State} (hL : s.inputLen ≤ s.ibufCap)
    (hlen : tableLen w < s.digitLen sg) :
    settle (runParse .scalar sg .checked w s) = .next (s.ended 2#32)
      ∧ settle (runParse .scalar sg .wrapping w s) = .next (s.ended 0x10A#32)
      ∧ (s.hasVec = true → settle (runVparse sg .checked w s) = .next (s.ended 2#32)
        ∧ settle (runVparse sg .wrapping w s) = .next (s.ended 0x10A#32)) := by
  have hchk eng : settle (runParse eng sg .checked w s) = .next (s.ended 2#32) := by
    rw [runParse_tooLong eng .checked hL hlen, Policy.tooLong, State.raise_overflow, settle_ok]
  have hwrap eng : settle (runParse eng sg .wrapping w s) = .next (s.ended 0x10A#32) := by
    rw [runParse_tooLong eng .wrapping hL hlen, Policy.tooLong, State.raise_wrapLen, settle_ok]
  refine ⟨hchk .scalar, hwrap .scalar, fun hv => ?_⟩
  rw [runVparse_of_hasVec hv, runVparse_of_hasVec hv]
  exact ⟨hchk .vector, hwrap .vector⟩

/-- Settles O42: the eight commands are the four parses of each signedness. -/
theorem tooManyDigitsEndTheParseByPolicy : Obligations.TooManyDigitsEndTheParseByPolicy :=
  fun _ _ hL => ⟨settle_parse_tooLong hL, settle_parse_tooLong hL⟩

end Sys2Proof.Machine

/-! PROOF. The digit counter, the formatting core and the frame of FMT (spec/42_scalar_format.md R170
to R179). The number of decimal digits of `n` is `Nat.log 10 n + 1`: the counter's loop computes that
logarithm, and the core's two loops each write a block of low digits and go on with the rest of the
number, whose logarithm is smaller by the length of the block. -/

namespace Sys2Proof.Machine

/-! ## The digit counter -/

/-- R171 in Mathlib's vocabulary. -/
theorem isDigitCount_iff {c n : Nat} : IsDigitCount c n ↔ c = Nat.log 10 n + 1 := by
  constructor
  · rintro ⟨hpos, hlt, rfl | hle⟩
    · rw [Nat.log_of_lt (by simpa using hlt)]
    · obtain ⟨k, rfl⟩ := Nat.exists_eq_add_of_le' hpos
      rw [Nat.log_eq_of_pow_le_of_lt_pow (m := k) hle hlt]
  · rintro rfl
    refine ⟨by omega, Nat.lt_pow_succ_log_self (by omega) n, ?_⟩
    obtain rfl | hn := eq_or_ne n 0
    · exact .inl rfl
    · exact .inr (Nat.pow_log_le_self 10 hn)

/-- A number of five digits or more has four digits more than the number without its last four. -/
theorem log_eq_log_div_add_four {n : Nat} (h : 10000 ≤ n) :
    Nat.log 10 n = Nat.log 10 (n / 10000) + 4 := by
  have hle : 4 ≤ Nat.log 10 n := Nat.le_log_of_pow_le (by omega) h
  have hdiv : Nat.log 10 (n / 10000) = Nat.log 10 n - 4 := Nat.log_div_base_pow 10 n 4
  omega

/-- R170: the loop adds the logarithm to the count; a pass takes up to four digits. -/
theorem digitsLoop_eq_add_log {passes n : Nat} (cnt : Nat) (h : n < 10 ^ (4 * passes)) :
    digitsLoop passes n cnt = cnt + Nat.log 10 n := by
  induction passes generalizing n cnt with
  | zero =>
    obtain rfl : n = 0 := by simpa using h
    simp [digitsLoop]
  | succ passes ih =>
    have hlog {k : Nat} (hle : 10 ^ k ≤ n) (hlt : n < 10 ^ (k + 1)) :
        cnt + k = cnt + Nat.log 10 n := by
      rw [Nat.log_eq_of_pow_le_of_lt_pow hle hlt]
    unfold digitsLoop
    split
    · next h1 => rw [Nat.log_of_lt h1, Nat.add_zero]
    split
    · exact hlog (k := 1) (by omega) (by omega)
    split
    · exact hlog (k := 2) (by omega) (by omega)
    split
    · exact hlog (k := 3) (by omega) (by omega)
    · next hn =>
      have hrest : n / 10000 < 10 ^ (4 * passes) :=
        Nat.div_lt_of_lt_mul (by rwa [Nat.mul_succ, Nat.pow_add, Nat.mul_comm] at h)
      rw [ih _ hrest, log_eq_log_div_add_four (Nat.le_of_not_lt hn), Nat.add_assoc, Nat.add_comm 4]

/-- R170, R171: five passes count up to 20 digits. -/
theorem digits10_eq_log {n : Nat} (h : n < 10 ^ 20) : digits10 n = Nat.log 10 n + 1 :=
  (digitsLoop_eq_add_log (passes := 5) 1 h).trans (Nat.add_comm ..)

/-- R5: the N digits of a width hold every number of W bits. -/
theorem two_pow_bits_le_pow_tableLen (w : Width) : 2 ^ w.bits ≤ 10 ^ tableLen w := by
  cases w <;> decide

theorem tableLen_pos (w : Width) : 0 < tableLen w := by cases w <;> decide

theorem toNat_lt_pow_tableLen {w : Width} (n : BitVec w.bits) : n.toNat < 10 ^ tableLen w :=
  n.isLt.trans_le (two_pow_bits_le_pow_tableLen w)

theorem toNat_lt_pow_twenty {w : Width} (n : BitVec w.bits) : n.toNat < 10 ^ 20 :=
  (toNat_lt_pow_tableLen n).trans_le (Nat.pow_le_pow_right (by omega) (by cases w <;> decide))

/-- Settles O32: the counter is the logarithm plus 1, and a W-bit number is below 10^N. -/
theorem digitCounterCountsDecimalDigits : Obligations.DigitCounterCountsDecimalDigits := by
  intro w n
  have hlog : Nat.log 10 n.toNat < tableLen w :=
    Nat.log_lt_of_lt_pow' (tableLen_pos w).ne' (toNat_lt_pow_tableLen n)
  rw [digits10_eq_log (toNat_lt_pow_twenty n)]
  refine ⟨fun h => by rw [h, Nat.log_zero_right], fun h => ⟨?_, ?_⟩, by omega, hlog⟩
  · exact Nat.pow_log_le_self 10 (by omega)
  · exact Nat.lt_pow_succ_log_self (by omega) _

/-! ## The formatting core -/

/-- `m'` is `m` with the `c` low digits of `n` written to the offsets that end at `B - 1`, the last
digit at the highest (R179). -/
structure DigitsWritten (B c n : Nat) (m m' : Memory) : Prop where
  digit : ∀ j < c, m'.get? (B - 1 - j) = some (digitByte (n / 10 ^ j % 10))
  other : ∀ a, a < B - c ∨ B ≤ a → m'.get? a = m.get? a

/-- A block of digits, then the other digits of the number left of it. -/
theorem DigitsWritten.append {pos k c n : Nat} {m m₁ m' : Memory}
    (low : DigitsWritten (pos + k) k n m m₁) (high : DigitsWritten pos c (n / 10 ^ k) m₁ m') :
    DigitsWritten (pos + k) (c + k) n m m' where
  digit j hj := by
    by_cases h : j < k
    · rw [high.other _ (by omega), low.digit j h]
    · obtain ⟨i, rfl⟩ := Nat.exists_eq_add_of_le (Nat.le_of_not_lt h)
      have hoff : pos + k - 1 - (k + i) = pos - 1 - i := by omega
      rw [hoff, high.digit i (by omega), Nat.div_div_eq_div_mul, ← Nat.pow_add]
  other a ha := by rw [high.other a (by omega), low.other a (by omega)]

/-- One digit (R131). -/
theorem obufWrite1_digit {capacity pos : Nat} (n : Nat) (m : Memory) (h : pos < capacity) :
    ∃ m', obufWrite1 capacity m pos (digitByte (n % 10)) = .ok m'
      ∧ DigitsWritten (pos + 1) 1 n m m' :=
  ⟨_, if_pos h, {
    digit := fun j hj => by
      obtain rfl : j = 0 := by omega
      simp
    other := fun a ha => Memory.get?_set_other m _ (by omega) }⟩

/-- Four digits, the most significant at the lowest offset (R172). -/
theorem obufWrite4_extract4 {capacity pos : Nat} (n : Nat) (m : Memory) (h : pos + 4 ≤ capacity) :
    ∃ m', obufWrite4 capacity m pos (extract4 n) = .ok m' ∧ DigitsWritten (pos + 4) 4 n m m' :=
  ⟨_, if_pos h, {
    digit := fun j hj => by
      have : j = 0 ∨ j = 1 ∨ j = 2 ∨ j = 3 := by omega
      rcases this with rfl | rfl | rfl | rfl <;> simp [extract4]
    other := fun a ha => by
      rw [Memory.get?_set_other _ _ (by omega), Memory.get?_set_other _ _ (by omega),
        Memory.get?_set_other _ _ (by omega), Memory.get?_set_other _ _ (by omega)] }⟩

/-- R174: the fixup loop writes all digits of a number that fits below `pos`. -/
theorem formatFixup_writes {capacity pos n : Nat} (m : Memory) (hc : Nat.log 10 n + 1 ≤ pos)
    (hcap : pos ≤ capacity) :
    ∃ m', formatFixup capacity pos n m = .ok m' ∧ DigitsWritten pos (Nat.log 10 n + 1) n m m' := by
  induction pos generalizing n m with
  | zero => omega
  | succ pos ih =>
    obtain ⟨m₁, h₁, low⟩ := obufWrite1_digit n m hcap
    rw [formatFixup, h₁]
    by_cases hn : n < 10
    · rw [Nat.log_of_lt hn]
      exact ⟨m₁, if_pos (.inl (Nat.div_eq_of_lt hn)), low⟩
    · have hlog : Nat.log 10 n = Nat.log 10 (n / 10) + 1 :=
        Nat.log_of_one_lt_of_le (by omega) (Nat.le_of_not_lt hn)
      obtain ⟨m', h', high⟩ := ih m₁ (n := n / 10) (by omega) (by omega)
      rw [hlog]
      exact ⟨m', (if_neg (by omega)).trans h', low.append (k := 1) high⟩

/-- R174, R179: the four-digit loop, then the fixup loop. -/
theorem formatGroups_writes {capacity pos n : Nat} (m : Memory) (hc : Nat.log 10 n + 1 ≤ pos)
    (hcap : pos ≤ capacity) :
    ∃ m', formatGroups capacity pos n m = .ok m' ∧ DigitsWritten pos (Nat.log 10 n + 1) n m m' := by
  fun_induction formatGroups capacity pos n m with
  | case1 pos n m hn ih =>
    obtain ⟨m₁, h₁, low⟩ := obufWrite4_extract4 n m hcap
    have hlog := log_eq_log_div_add_four hn
    obtain ⟨m', h', high⟩ := ih m₁ (by omega) (by omega)
    rw [h₁, hlog]
    exact ⟨m', h', low.append high⟩
  | case2 => exact formatFixup_writes _ hc hcap
  | case3 pos n m hpos hn =>
    have hlog := log_eq_log_div_add_four hn
    exact (hpos (pos - 4) (by omega)).elim
  | case4 => exact formatFixup_writes _ hc hcap

/-- R179, for a number of any size. -/
theorem formatCore_writes {capacity B c n : Nat} (m : Memory) (hc : IsDigitCount c n) (hB : c ≤ B)
    (hcap : B ≤ capacity) :
    ∃ m', formatCore capacity m n B = .ok m' ∧ DigitsWritten B c n m m' := by
  obtain rfl := isDigitCount_iff.1 hc
  exact formatGroups_writes m hB hcap

theorem digitByte_eq_ofNat (q : Nat) : digitByte q = BitVec.ofNat 8 (0x30 + q) :=
  (BitVec.ofNat_add ..).symm

/-- Settles O35: the digits are those of `DigitsWritten`, their bytes by R131. -/
theorem formatCoreWritesTheDigits : Obligations.FormatCoreWritesTheDigits := by
  intro w n capacity B c m hc hB hcap
  obtain ⟨m', h', hw⟩ := formatCore_writes m hc hB hcap
  exact ⟨m', h', fun j hj => (hw.digit j hj).trans (congrArg some (digitByte_eq_ofNat _)), hw.other⟩

/-! ## The frame of FMT -/

/-- The magnitude of an operand has at most 20 digits (R205). -/
theorem IsOperand.mag_lt {v : SignMag} {s : State} (h : IsOperand v s) : v.mag < 10 ^ 20 := by
  obtain ⟨w, rfl | rfl⟩ := h
  · exact toNat_lt_pow_twenty (operand w s)
  · unfold signedOperand
    split <;> exact toNat_lt_pow_twenty _

/-- R177: neither the digits nor the minus byte stand outside the `count` offsets that end at `B - 1`. -/
theorem placeNumber_other {capacity B : Nat} {m m' : Memory} {v : SignMag} (hv : v.mag < 10 ^ 20)
    (hB : v.count ≤ B) (hcap : B ≤ capacity) (h : placeNumber capacity m v B = .ok m') :
    ∀ a, a < B - v.count ∨ B ≤ a → m'.get? a = m.get? a := by
  have hc : IsDigitCount (digits10 v.mag) v.mag := isDigitCount_iff.2 (digits10_eq_log hv)
  have hle : digits10 v.mag ≤ v.count := Nat.le_add_right ..
  have hpos := v.count_pos
  obtain ⟨m₁, h₁, hw⟩ := formatCore_writes m hc (hle.trans hB) hcap
  intro a ha
  have hcore : m₁.get? a = m.get? a := hw.other a (by omega)
  rw [placeNumber, h₁] at h
  by_cases hneg : v.neg = true
  · obtain ⟨-, rfl⟩ := obufWrite1_ok ((if_pos hneg).symm.trans h)
    rw [Memory.get?_set_other _ _ (by omega), hcore]
  · obtain rfl := Except.ok.inj ((if_neg hneg).symm.trans h)
    exact hcore

/-- Setting FLT leaves every other bit (R22). -/
theorem statusSetFlt_getLsbD (v : Word) {i : Nat} (h8 : i ≠ 8) :
    (statusSetFlt v).getLsbD i = v.getLsbD i := by
  have hflt : (0x100#32).getLsbD i = false := by
    rw [show 0x100#32 = BitVec.twoPow 32 8 from rfl, BitVec.getLsbD_twoPow]
    simp [h8.symm]
  rw [statusSetFlt, BitVec.getLsbD_or, hflt, Bool.or_false]

/-- `raise` writes CODE and FLT, and leaves the other bits of STATUS (R266). -/
theorem Err.status_getLsbD (e : Err) (v : Word) {i : Nat} (h4 : 4 ≤ i) (h8 : i ≠ 8) :
    (e.status v).getLsbD i = v.getLsbD i := by
  unfold Err.status
  split
  · rw [statusSetFlt_getLsbD _ h8, statusSetCode_high _ _ h4]
  · exact statusSetCode_high _ _ h4

/-- R176, R177, R207: FMT faults without touching ERRB, or changes OBUF in the operand's window only. -/
theorem runFmt_writes {v : SignMag} {s t : State} (hv : v.mag < 10 ^ 20) (h : runFmt v s = .ok t) :
    (∃ e : Err, e.errb s.errb = s.errb ∧ t = s.raise e)
      ∨ ∃ m : Memory,
        (∀ a, a < s.olen.toNat - v.count ∨ s.olen.toNat ≤ a → m.get? a = s.obuf.get? a)
        ∧ t = State.complete { s with obuf := m, cnt := BitVec.ofNat 32 v.count } := by
  obtain ⟨-, ht⟩ | ⟨-, -, ht⟩ | ⟨hB, hcap, m, hm, ht⟩ := runFmt_cases h
  · exact .inl ⟨.lenRange, rfl, ht⟩
  · exact .inl ⟨.bufSmall, rfl, ht⟩
  · exact .inr ⟨m, placeNumber_other hv hB hcap hm, ht⟩

/-- Settles O54: both commands are `runFmt` on their operand, which faults or writes the window. -/
theorem formatFrame : Obligations.FormatFrame := by
  intro w i v s t hi h
  have ⟨hv, hrun⟩ : v.mag < 10 ^ 20 ∧ runFmt v s = .ok t := by
    obtain ⟨rfl, rfl⟩ | ⟨rfl, rfl⟩ := hi
    · exact ⟨IsOperand.mag_lt ⟨w, .inl rfl⟩, settle_next.1 h⟩
    · exact ⟨IsOperand.mag_lt ⟨w, .inr rfl⟩, settle_next.1 h⟩
  obtain ⟨e, herrb, rfl⟩ | ⟨m, hm, rfl⟩ := runFmt_writes hv hrun
  · refine ⟨?_, fun k => e.status_getLsbD s.status, fun _ => ⟨rfl, rfl⟩, fun a => ?_, fun a _ => ?_⟩
    · simp only [State.raise, herrb]
    · exact s.byte_raise e .ibuf a
    · exact s.byte_raise e .obuf a
  · exact ⟨rfl, fun k h4 _ => statusSetCode_high _ _ h4, fun hcode =>
      absurd (statusCode_setCode ..) hcode, fun _ => rfl, fun a ha => State.byte_congr (hm a ha) rfl⟩

end Sys2Proof.Machine

/-! PROOF. The sign adapter (spec/43_sign_adapter.md R201 to R211): the magnitude a signed parse
negates by wrapping, and the magnitude and sign of which the signed digit counter takes the length. -/

namespace Sys2Proof.Machine

/-! ## The parse of digits -/

theorem negw_toNat {n : Nat} (a : BitVec n) : (negw a).toNat = (2 ^ n - a.toNat) % 2 ^ n := by
  rw [negw_eq_neg, BitVec.toNat_neg]

/-- R202: the sign applied, as a number. -/
theorem applySign_toNat {n : Nat} (neg : Bool) (v : BitVec n) :
    (applySign neg v).toNat = if neg then (2 ^ n - v.toNat) % 2 ^ n else v.toNat := by
  cases neg with
  | false => rfl
  | true => exact negw_toNat v

/-- R151, R203: a core's value is signed, widened with zeros and stored, and the parse completes. -/
theorem parseEnd_ofNat {n v : Nat} (neg : Bool) (s : State) (hv : v < 2 ^ n) :
    parseEnd neg s (.ok (BitVec.ofNat n v)) = { s with
      res := BitVec.ofNat 64 (if neg then (2 ^ n - v) % 2 ^ n else v)
      status := statusWith s.status 0 } := by
  have hres : (applySign neg (BitVec.ofNat n v)).setWidth 64 =
      BitVec.ofNat 64 (if neg then (2 ^ n - v) % 2 ^ n else v) := by
    rw [← BitVec.ofNat_toNat, applySign_toNat, BitVec.toNat_ofNat, Nat.mod_eq_of_lt hv]
  rw [parseEnd, hres]
  rfl

/-- R151 to R153, R203, R204: whichever engine, signedness and policy, a parse of at most N digits
completes with their value modulo 2^W, negated where the input has a sign. -/
theorem runParse_digits (eng : Engine) {sg : Bool} (pol : Policy) {w : Width} {s : State}
    (hr : s.RomIntact) (hL : s.inputLen ≤ s.ibufCap) (hlen : s.digitLen sg ≤ tableLen w)
    (hd : ∀ j < s.digitLen sg, IsDigit (s.digitAt sg j)) :
    let v := decimalSum (s.digitAt sg) (s.digitLen sg) % 2 ^ w.bits
    runParse eng sg pol w s = .ok { s with
      res := BitVec.ofNat 64 (if sg = true ∧ s.HasMinus then (2 ^ w.bits - v) % 2 ^ w.bits else v)
      status := statusWith s.status 0 } := by
  have hwindow : s.digitOff sg + s.digitLen sg ≤ s.ibufCap := (digitOff_add_digitLen s sg).trans_le hL
  rw [runParse_eq_of_core pol hL hlen (eng.core_digits hr hlen hwindow hd),
    parseEnd_ofNat _ _ (Nat.mod_lt _ (Nat.two_pow_pos _))]
  simp only [decide_eq_true_eq]

/-- Settles O37: both commands are the signed scalar parse, and digits are parsed alike under both
policies. -/
theorem signedParseOfDigitsCompletes : Obligations.SignedParseOfDigitsCompletes := by
  intro w s hr hL hlen hd v t
  have hrun (pol : Policy) : runParse .scalar true pol w s = .ok t := by
    simpa only [true_and] using runParse_digits .scalar pol hr hL hlen hd
  exact ⟨congrArg settle (hrun .checked), congrArg settle (hrun .wrapping)⟩

/-! ## The signed digit count -/

theorem operand_toNat (w : Width) (s : State) : (operand w s).toNat = s.opndNat w :=
  BitVec.toNat_setWidth ..

/-- R205, in the numbers of the spec: the wrapping negation of a set sign bit is the magnitude. -/
theorem signedOperand_eq (w : Width) (s : State) :
    signedOperand w s = ⟨decide (s.OpndNeg w), s.opndMag w⟩ := by
  have hmsb : (operand w s).msb = decide (s.OpndNeg w) := by
    rw [BitVec.msb_eq_decide, operand_toNat]
  by_cases hneg : s.OpndNeg w
  · have hpos : 0 < s.opndNat w := (Nat.two_pow_pos _).trans_le hneg
    have hmag : (negw (operand w s)).toNat = 2 ^ w.bits - s.opndNat w := by
      rw [negw_toNat, operand_toNat, Nat.mod_eq_of_lt (Nat.sub_lt (Nat.two_pow_pos _) hpos)]
    simp [signedOperand, hmsb, hneg, hmag]
  · simp [signedOperand, hmsb, hneg, operand_toNat]

theorem opndMag_lt_pow_twenty (w : Width) (s : State) : s.opndMag w < 10 ^ 20 := by
  have hmag : (signedOperand w s).mag < 10 ^ 20 := IsOperand.mag_lt ⟨w, .inr rfl⟩
  rwa [signedOperand_eq] at hmag

/-- R205: the magnitude of a signed number is at most that of the minimum. -/
theorem opndMag_le (w : Width) (s : State) : s.opndMag w ≤ 2 ^ (w.bits - 1) := by
  have hpow : 2 ^ w.bits = 2 * 2 ^ (w.bits - 1) := (mul_pow_sub_one (bits_pos w).ne' 2).symm
  rw [State.opndMag]
  split <;> omega

/-- R211: `SCount` in the spec's words. -/
theorem signedOperand_count {w : Width} {s : State} {c : Nat} (hc : IsDigitCount c (s.opndMag w)) :
    (signedOperand w s).count = c + if s.OpndNeg w then 1 else 0 := by
  rw [signedOperand_eq, SignMag.count, digits10_eq_log (opndMag_lt_pow_twenty w s),
    ← isDigitCount_iff.1 hc]
  simp only [decide_eq_true_eq]

/-- R211: the digits of the minimum's magnitude and a sign bound the count. -/
theorem signedOperand_count_le {w : Width} (s : State) {k : Nat} (hk : k ≠ 0)
    (hmin : 2 ^ (w.bits - 1) < 10 ^ k) : (signedOperand w s).count ≤ k + 1 := by
  have hlog : Nat.log 10 (s.opndMag w) < k :=
    Nat.log_lt_of_lt_pow' hk ((opndMag_le w s).trans_lt hmin)
  rw [signedOperand_count (isDigitCount_iff.2 rfl)]
  exact Nat.add_le_add hlog (by split <;> decide)

/-- R211: the range of `SCount`: the magnitude of the minimum has 3, 5, 10, 19 and 19 digits. -/
theorem signedOperand_count_range (w : Width) (s : State) : (signedOperand w s).count ≤
    match w with | .w8 => 4 | .w16 => 6 | .w32 => 11 | .w64 => 20 | .word => 20 := by
  cases w with
  | w8 => exact signedOperand_count_le s (k := 3) (by decide) (by decide)
  | w16 => exact signedOperand_count_le s (k := 5) (by decide) (by decide)
  | w32 => exact signedOperand_count_le s (k := 10) (by decide) (by decide)
  | w64 => exact signedOperand_count_le s (k := 19) (by decide) (by decide)
  | word => exact signedOperand_count_le s (k := 19) (by decide) (by decide)

/-- Settles O47: CNT holds `SCount` whole, because the count is far below 2^32. -/
theorem signedDigitCountAndItsRange : Obligations.SignedDigitCountAndItsRange := by
  intro w s
  have hrange := signedOperand_count_range w s
  have hcnt : (BitVec.ofNat 32 (signedOperand w s).count).toNat = (signedOperand w s).count :=
    (BitVec.toNat_ofNat ..).trans (Nat.mod_eq_of_lt (hrange.trans_lt (by cases w <;> decide)))
  exact ⟨_, rfl, fun c hc => hcnt.trans (signedOperand_count hc),
    (signedOperand w s).count_pos.trans_eq hcnt.symm, hcnt.trans_le hrange⟩

end Sys2Proof.Machine

/-! PROOF. The vector accumulation core (spec/44_vector_parse.md R236, R237). -/

namespace Sys2Proof.Machine

/-- Settles O34: both cores start their group loops from the same remainder, index, offset and sum,
and the loops agree from every such start, faults included. -/
theorem vectorCoreEqualsScalarCore : Obligations.VectorCoreEqualsScalarCore :=
  fun w s off len => vparseGroups_eq_parseGroups w s len (tableLen w - len) off 0

end Sys2Proof.Machine

/-! PROOF. Errors and faults (spec/60_exceptions.md R262 to R268): what `complete` and every `raise`
write, that an illegal word ends with F_ILLEGAL, and that a command whose CODE is not 0 has raised. -/

namespace Sys2Proof.Machine

/-! ## The ends of a command -/

/-- R266: ERRB is written for INVALID_DIGIT only. -/
theorem Err.errb_of_code_ne_one {e : Err} (h : e.code ≠ 1) (v : Word) : e.errb v = v := by
  cases e with
  | invalidDigit b => exact absurd rfl h
  | overflow | illegal | lenRange | wrapLen | bufSmall => rfl

/-- R31, R266: INVALID_DIGIT leaves one byte in ERRB, zero-extended. -/
theorem Err.errb_lt_of_code_eq_one {e : Err} (h : e.code = 1) (v : Word) :
    (e.errb v).toNat < 256 := by
  cases e with
  | invalidDigit b => exact (BitVec.toNat_setWidth_of_le (by decide)).trans_lt b.isLt
  | overflow | illegal | lenRange | wrapLen | bufSmall => exact absurd h (by decide)

/-- R265: CODE 0 is what clearing the field leaves. -/
theorem State.complete_eq (s : State) :
    s.complete = { s with status := s.status &&& 0xFFFFFFF0#32 } := by
  simp [State.complete, statusSetCode]

/-- R261, R266: a fault sets its code and FLT together, and leaves ERRB. -/
theorem State.raise_fault (s : State) {e : Err} (he : 8 ≤ e.code.toNat) :
    s.raise e = s.ended (e.code.setWidth 32 ||| 0x100#32) := by
  have hstatus : e.status s.status = statusWith s.status (e.code.setWidth 32 ||| 0x100#32) :=
    (if_pos he).trans (BitVec.or_assoc ..)
  have hcode : e.code ≠ 1 := fun h => absurd he (by simp [h])
  rw [State.raise, hstatus, Err.errb_of_code_ne_one hcode]

/-- R266: what `raise F_ILLEGAL` writes. -/
theorem State.raise_illegal (s : State) : s.raise .illegal = s.ended 0x108#32 :=
  s.raise_fault (by decide)

/-- R266: what `raise F_LEN_RANGE` writes. -/
theorem State.raise_lenRange (s : State) : s.raise .lenRange = s.ended 0x109#32 :=
  s.raise_fault (by decide)

/-- R266: what `raise F_BUF_SMALL` writes. -/
theorem State.raise_bufSmall (s : State) : s.raise .bufSmall = s.ended 0x10B#32 :=
  s.raise_fault (by decide)

/-- Settles O27: each end of a command by the lemma that says what it writes. -/
theorem completeAndRaiseWriteStatus : Obligations.CompleteAndRaiseWriteStatus :=
  fun s => ⟨s.complete_eq, s.raise_invalidDigit, s.raise_overflow, s.raise_illegal,
    s.raise_lenRange, s.raise_wrapLen, s.raise_bufSmall⟩

/-! ## Illegal words -/

/-- R262: a word that decodes to no command is stored and raises F_ILLEGAL. -/
theorem commandWrite_of_not_decoded {s : State} {c : Word} (h : ∀ i, decode s.hasVec c ≠ .ok i) :
    commandWrite c s = .next (State.raise { s with cmd := c } .illegal) := by
  unfold commandWrite
  dsimp only
  split
  · next i hi => exact absurd hi (h i)
  · rfl

/-- Settles O6: the host's write of index 0 is the command write, which raises F_ILLEGAL. -/
theorem illegalWordOnlyFaults : Obligations.IllegalWordOnlyFaults := fun _ _ h =>
  (commandWrite_of_not_decoded h).trans (congrArg _ (State.raise_illegal _))

/-! ## Commands that end with an error or a fault -/

/-- R265: every success clears CODE, so a command with another CODE has raised. -/
theorem exec_raised {i : Instr} {s t : State} (h : exec i s = .next t)
    (hcode : statusCode t.status ≠ 0) : ∃ e, t = s.raise e := by
  have completed (u : State) : ¬ statusCode u.complete.status ≠ 0 := by simp
  obtain he | ⟨_, rfl⟩ | ⟨_, _, rfl⟩ | ⟨_, _, _, _, _, _, rfl⟩ | ⟨_, _, _, _, rfl⟩ :=
    exec_next_cases h
  · exact he
  all_goals exact absurd hcode (completed _)

/-- Settles O26: such a command raised some outcome, which is known by its code. -/
theorem errorsWriteOnlyStatusAndErrb : Obligations.ErrorsWriteOnlyStatusAndErrb := by
  intro i s t h hcode
  obtain ⟨e, rfl⟩ := exec_raised h hcode
  rw [State.raise_status, Err.statusCode_status, State.raise_errb]
  exact ⟨rfl, fun h1 => Err.errb_of_code_ne_one h1 _, fun h1 => Err.errb_lt_of_code_eq_one h1 _⟩

end Sys2Proof.Machine

/-! PROOF. The command word (spec/30_encoding.md R90 to R97). Its fields are read as digits of the word
as a number, so that a word without reserved bits is the sum of R95 over its own fields; the decoder
answers a command exactly when the fields name a row of R94. -/

namespace Sys2Proof

/-! ## The fields as numbers -/

section fields
variable (c : Word)

theorem fieldOp_eq : fieldOp c = c.toNat % 16 := by simp [fieldOp]

theorem fieldWsel_eq : fieldWsel c = c.toNat / 16 % 8 := by
  simp [fieldWsel, Nat.shiftRight_eq_div_pow]

theorem fieldRsv_eq : fieldRsv c = c.toNat / 2 ^ 10 := by
  have hc := c.isLt
  simp only [fieldRsv, BitVec.extractLsb'_toNat, Nat.shiftRight_eq_div_pow]
  omega

/-- A bit of the word as a number. -/
theorem toNat_getLsbD (k : Nat) : (c.getLsbD k).toNat = c.toNat / 2 ^ k % 2 := by
  rw [BitVec.getLsbD, Nat.testBit_eq_decide_div_mod_eq]
  obtain h | h := Nat.mod_two_eq_zero_or_one (c.toNat / 2 ^ k) <;> simp [h]

/-- R95: a word is the weighted sum of its fields. -/
theorem toNat_eq_fields : c.toNat = fieldOp c + 16 * fieldWsel c + 128 * (fieldSgn c).toNat
    + 256 * (fieldPol c).toNat + 512 * (fieldEng c).toNat + 1024 * fieldRsv c := by
  rw [fieldOp_eq, fieldWsel_eq, fieldRsv_eq, fieldSgn, fieldPol, fieldEng]
  simp only [toNat_getLsbD]
  omega

end fields

/-- R91: WSEL 5 to 7 are no width's. -/
theorem wsel_le (w : Width) : w.wsel ≤ 4 := by cases w <;> decide

section commandWord
variable {op : Nat} (w : Width) (sgn pol eng : Bool)

/-- The sum of R95 fits the word. -/
theorem commandWord_toNat (hop : op < 16) :
    (commandWord op w sgn.toNat pol.toNat eng.toNat).toNat
      = op + 16 * w.wsel + 128 * sgn.toNat + 256 * pol.toNat + 512 * eng.toNat := by
  have hw := wsel_le w
  have hs := sgn.toNat_le
  have hp := pol.toNat_le
  have he := eng.toNat_le
  exact (BitVec.toNat_ofNat ..).trans (Nat.mod_eq_of_lt (by omega))

/-- R95: the fields of the word made of given fields are those. -/
theorem commandWord_fields (hop : op < 16) :
    let c := commandWord op w sgn.toNat pol.toNat eng.toNat
    fieldOp c = op ∧ fieldWsel c = w.wsel ∧ fieldSgn c = sgn ∧ fieldPol c = pol ∧ fieldEng c = eng
      ∧ fieldRsv c = 0 := by
  intro c
  have hc : c.toNat = _ := commandWord_toNat w sgn pol eng hop
  have hw := wsel_le w
  have hs := sgn.toNat_le
  have hp := pol.toNat_le
  have he := eng.toNat_le
  have hinj : Function.Injective Bool.toNat := by decide
  have bit (k : Nat) {b : Bool} (h : c.toNat / 2 ^ k % 2 = b.toNat) : c.getLsbD k = b :=
    hinj ((toNat_getLsbD c k).trans h)
  refine ⟨?_, ?_, bit 7 ?_, bit 8 ?_, bit 9 ?_, ?_⟩
  · rw [fieldOp_eq]; omega
  · rw [fieldWsel_eq]; omega
  · omega
  · omega
  · omega
  · rw [fieldRsv_eq]; omega

end commandWord

/-! ## Widths and rows -/

/-- R91: WSEL and the width name each other. -/
theorem decodeWidth_eq_some_iff {n : Nat} {w : Width} : decodeWidth n = some w ↔ w.wsel = n := by
  constructor
  · match n with
    | 0 | 1 | 2 | 3 | 4 => rintro ⟨⟩; rfl
    | n + 5 => rintro ⟨⟩
  · rintro rfl
    cases w <;> rfl

/-- R91: the widths take the first five values of WSEL. -/
theorem exists_wsel_eq_iff {n : Nat} : (∃ w : Width, w.wsel = n) ↔ n ≤ 4 := by
  constructor
  · rintro ⟨w, rfl⟩
    exact wsel_le w
  · intro h
    match n with
    | 0 => exact ⟨.w8, rfl⟩
    | 1 => exact ⟨.w16, rfl⟩
    | 2 => exact ⟨.w32, rfl⟩
    | 3 => exact ⟨.w64, rfl⟩
    | 4 => exact ⟨.word, rfl⟩

/-- The rows of R94: OP names an operation. -/
theorem exists_decodeOp_eq_some_iff {op : Nat} {sgn pol eng : Bool} {w : Width} :
    (∃ i, decodeOp op sgn pol eng w = some i) ↔ op = 1 ∨ op = 2 ∨ op = 3 ∨ op = 4 := by
  match op, sgn with
  | 0, _ | n + 5, _ => simp [decodeOp]
  | 1, _ | 2, false | 2, true | 3, false | 3, true | 4, false | 4, true => simp [decodeOp]

/-- R94, R95: the row of OP, SGN, POL and ENG is encoded by these four; ENG says which engine it needs. -/
theorem encode_of_decodeOp {op : Nat} {sgn pol eng : Bool} {w : Width} {i : Instr}
    (h : decodeOp op sgn pol eng w = some i) (hne : op ≠ 1 → pol = false ∧ eng = false) :
    encode i = commandWord op w sgn.toNat pol.toNat eng.toNat ∧ i.needsVec = eng := by
  match op, sgn with
  | 1, sgn =>
    obtain rfl := Option.some.inj h
    cases eng <;> cases sgn <;> cases pol <;> exact ⟨rfl, rfl⟩
  | 2, false | 2, true | 3, false | 3, true | 4, false | 4, true =>
    obtain ⟨rfl, rfl⟩ := hne (by decide)
    obtain rfl := Option.some.inj h
    exact ⟨rfl, rfl⟩
  | 0, _ | n + 5, _ => simp [decodeOp] at h

/-- R94, R95: every command is a row of the table, and its word is made of the row's fields. -/
theorem exists_decodeOp (i : Instr) : ∃ op sgn pol eng w,
    op < 16 ∧ decodeOp op sgn pol eng w = some i ∧ (op ≠ 1 → pol = false ∧ eng = false) := by
  cases i with
  | parseUChk w => exact ⟨1, false, false, false, w, by decide, rfl, by decide⟩
  | parseUWrap w => exact ⟨1, false, true, false, w, by decide, rfl, by decide⟩
  | parseSChk w => exact ⟨1, true, false, false, w, by decide, rfl, by decide⟩
  | parseSWrap w => exact ⟨1, true, true, false, w, by decide, rfl, by decide⟩
  | vparseUChk w => exact ⟨1, false, false, true, w, by decide, rfl, by decide⟩
  | vparseUWrap w => exact ⟨1, false, true, true, w, by decide, rfl, by decide⟩
  | vparseSChk w => exact ⟨1, true, false, true, w, by decide, rfl, by decide⟩
  | vparseSWrap w => exact ⟨1, true, true, true, w, by decide, rfl, by decide⟩
  | dcntU w => exact ⟨2, false, false, false, w, by decide, rfl, by decide⟩
  | dcntS w => exact ⟨2, true, false, false, w, by decide, rfl, by decide⟩
  | fmtU w => exact ⟨3, false, false, false, w, by decide, rfl, by decide⟩
  | fmtS w => exact ⟨3, true, false, false, w, by decide, rfl, by decide⟩
  | fmtaU w => exact ⟨4, false, false, false, w, by decide, rfl, by decide⟩
  | fmtaS w => exact ⟨4, true, false, false, w, by decide, rfl, by decide⟩

/-! ## The decoder -/

/-- R96: what the decoder asks of the fields of a word. -/
theorem decode_eq_ok_iff {hasVec : Bool} {c : Word} {i : Instr} :
    decode hasVec c = .ok i ↔
      fieldRsv c = 0 ∧ (fieldOp c ≠ 1 → fieldPol c = false ∧ fieldEng c = false)
        ∧ (fieldEng c = true → hasVec = true)
        ∧ ∃ w : Width, w.wsel = fieldWsel c
          ∧ decodeOp (fieldOp c) (fieldSgn c) (fieldPol c) (fieldEng c) w = some i := by
  simp only [← decodeWidth_eq_some_iff]
  unfold decode
  by_cases hrsv : fieldRsv c = 0
  case neg => simp [hrsv]
  rw [if_neg (not_not.2 hrsv)]
  cases hw : decodeWidth (fieldWsel c) with
  | none => dsimp only; split <;> simp
  | some w =>
    dsimp only
    cases hop : decodeOp (fieldOp c) (fieldSgn c) (fieldPol c) (fieldEng c) w with
    | none => simp [hop]
    | some j =>
      have hrow : (∃ w', some w = some w'
          ∧ decodeOp (fieldOp c) (fieldSgn c) (fieldPol c) (fieldEng c) w' = some i) ↔ j = i := by
        simp [hop]
      rw [hrow]
      dsimp only
      by_cases hpol : fieldOp c ≠ 1 ∧ fieldPol c = true
      · rw [if_pos hpol]; simp [hpol]
      rw [if_neg hpol]
      by_cases heng : fieldOp c ≠ 1 ∧ fieldEng c = true
      · rw [if_pos heng]; simp [heng]
      rw [if_neg heng]
      by_cases hvec : fieldEng c = true ∧ (!hasVec) = true
      · rw [if_pos hvec]; simp_all
      rw [if_neg hvec]
      simp_all

/-- Settles O1: the fields of a word that decodes are those of the command's row, whose word R95
makes of the same fields; and the fields of a command's word are those of its row. -/
theorem decodeIsExactlyTheEncodedWord : Obligations.DecodeIsExactlyTheEncodedWord := by
  intro hasVec c i
  rw [decode_eq_ok_iff, Instr.wellFormed]
  constructor
  · rintro ⟨hrsv, hne, hvec, w, hw, hop⟩
    obtain ⟨henc, heng⟩ := encode_of_decodeOp hop hne
    refine ⟨by cases he : fieldEng c <;> simp_all, BitVec.eq_of_toNat_eq ?_⟩
    have hlt : fieldOp c < 16 := (fieldOp_eq c).trans_lt (Nat.mod_lt _ (by decide))
    rw [henc, commandWord_toNat _ _ _ _ hlt, toNat_eq_fields c, hw, hrsv, Nat.mul_zero, Nat.add_zero]
  · rintro ⟨hwf, rfl⟩
    obtain ⟨op, sgn, pol, eng, w, hlt, hop, hne⟩ := exists_decodeOp i
    obtain ⟨henc, heng⟩ := encode_of_decodeOp hop hne
    obtain ⟨h1, h2, h3, h4, h5, h6⟩ := commandWord_fields w sgn pol eng hlt
    rw [henc, h1, h2, h3, h4, h5, h6]
    exact ⟨rfl, hne, fun he => by simpa [heng, he] using hwf, w, rfl, hop⟩

/-- R95, R96: the word of a command that the block offers decodes to it. -/
theorem decode_encode {hasVec : Bool} {i : Instr} (h : i.wellFormed hasVec = true) :
    decode hasVec (encode i) = .ok i :=
  (decodeIsExactlyTheEncodedWord hasVec _ i).2 ⟨h, rfl⟩

/-- R262: the word 0 is no command's. -/
theorem decode_zero_ne_ok (hasVec : Bool) (i : Instr) : decode hasVec 0 ≠ .ok i := by
  cases hasVec <;> simp [decode, fieldRsv, fieldWsel, fieldOp, decodeWidth, decodeOp]

theorem getLsbD_eq_false_iff (c : Word) (k : Nat) : c.getLsbD k = false ↔ c.toNat / 2 ^ k % 2 = 0 := by
  rw [← toNat_getLsbD, Bool.toNat_eq_zero]

theorem fieldPol_eq_false_iff (c : Word) : fieldPol c = false ↔ c.toNat / 256 % 2 = 0 :=
  getLsbD_eq_false_iff c 8

theorem fieldEng_eq_false_iff (c : Word) : fieldEng c = false ↔ c.toNat / 512 % 2 = 0 :=
  getLsbD_eq_false_iff c 9

/-- Settles O2: the decoder's conditions on the fields, read as conditions on the number. -/
theorem legalityPredicateOfTheDecoder : Obligations.LegalityPredicateOfTheDecoder := by
  intro hasVec c
  have hrow : (∃ i, decode hasVec c = .ok i) ↔
      fieldRsv c = 0 ∧ (fieldOp c ≠ 1 → fieldPol c = false ∧ fieldEng c = false)
        ∧ (fieldEng c = true → hasVec = true) ∧ (∃ w : Width, w.wsel = fieldWsel c)
        ∧ (fieldOp c = 1 ∨ fieldOp c = 2 ∨ fieldOp c = 3 ∨ fieldOp c = 4) := by
    simp only [decode_eq_ok_iff, exists_and_left, exists_comm (α := Instr),
      exists_decodeOp_eq_some_iff, exists_and_right]
  have hvec : (fieldEng c = true → hasVec = true) ↔ (fieldEng c = false ∨ hasVec = true) := by
    cases fieldEng c <;> simp
  rw [hrow, hvec, exists_wsel_eq_iff, ← Classical.or_iff_not_imp_left, fieldRsv_eq, fieldOp_eq,
    fieldWsel_eq, fieldPol_eq_false_iff, fieldEng_eq_false_iff]
  exact ⟨fun ⟨h1, h2, h3, h4, h5⟩ => ⟨h1, h5, h4, h2, h3⟩,
    fun ⟨h1, h5, h4, h2, h3⟩ => ⟨h1, h2, h3, h4, h5⟩⟩

/-- Settles O3: the decoder evaluated on the fourteen words. -/
theorem sampleWordsDecode : Obligations.SampleWordsDecode := by
  unfold Obligations.SampleWordsDecode
  decide

end Sys2Proof

/-! PROOF. One step and one move of the host (spec/20_memory.md R60, R62, R67, R71; spec/10_state.md
R20 to R26, R41; spec/70_reset_and_hazards.md R280, R300): what each move answers, and what no move
changes. -/

namespace Sys2Proof.Machine

/-! ## Steps -/

/-- Settles O8. -/
theorem stepPerformsTheOldestMove : Obligations.StepPerformsTheOldestMove :=
  fun _ _ _ => step_cons

/-- Settles O9. -/
theorem idleStepHoldsState : Obligations.IdleStepHoldsState := fun _ => step_nil

/-- R21: the write of a legal word runs its command. -/
theorem commandWrite_of_decoded {s : State} {c : Word} {i : Instr} (h : decode s.hasVec c = .ok i) :
    commandWrite c s = exec i { s with cmd := c } := by
  have h' : decode (State.hasVec { s with cmd := c }) c = .ok i := h
  simp only [commandWrite, h']

/-- Settles O5: the move is the write of CMD. -/
theorem stepRunsTheDecodedCommand : Obligations.StepRunsTheDecodedCommand := by
  intro s c rest i hp hd
  rw [step_cons hp]
  exact commandWrite_of_decoded (s := { s with pending := rest }) hd

/-- A step that answers is idle or performs the oldest pending move. -/
theorem step_next {s t : State} (h : step s = .next t) :
    (s.pending = [] ∧ t = s)
      ∨ ∃ m rest, s.pending = m :: rest ∧ hostMove m { s with pending := rest } = .next t := by
  cases hp : s.pending with
  | nil => exact .inl ⟨rfl, by simpa [step_nil hp] using h.symm⟩
  | cons m rest => exact .inr ⟨m, rest, rfl, step_cons hp ▸ h⟩

/-! ## What no move changes -/

/-- R21, R262: a write of CMD stores the word, and changes nothing else that a command cannot touch. -/
theorem commandWrite_commandFrame {c : Word} {s t : State} (h : commandWrite c s = .next t) :
    CommandFrame { s with cmd := c } t := by
  obtain rfl | ⟨i, -, hi⟩ := commandWrite_next h
  · exact ⟨rfl, rfl, rfl, rfl, rfl, rfl, rfl, rfl, rfl⟩
  · exact exec_commandFrame hi

/-- A move that answers something to the host (R60). -/
abbrev HostMove.IsRead (m : HostMove) : Prop := (∃ i, m = .read i) ∨ ∃ b a, m = .readByte b a

/-- What a move leaves: CAP, the ROM, the moves still pending, and the answers but for its own. -/
structure MoveFrame (m : HostMove) (s t : State) : Prop where
  cap : t.cap = s.cap
  rom : t.rom = s.rom
  pending : t.pending = s.pending
  read : m.IsRead → ∃ v, t.replies = v :: s.replies
  replies : ¬ m.IsRead → t.replies = s.replies

/-- A move that is no read has nothing to answer. -/
theorem MoveFrame.of_not_isRead {m : HostMove} {s t : State} (hm : ¬ m.IsRead) (cap : t.cap = s.cap)
    (rom : t.rom = s.rom) (pending : t.pending = s.pending) (replies : t.replies = s.replies) :
    MoveFrame m s t :=
  ⟨cap, rom, pending, fun h => absurd h hm, fun _ => replies⟩

theorem hostMove_moveFrame {m : HostMove} {s t : State} (h : hostMove m s = .next t) :
    MoveFrame m s t := by
  obtain ⟨v, hm, rfl⟩ | ⟨⟨i, v, rfl⟩, rfl⟩ | ⟨c, rfl, hc⟩ | ⟨v, rfl, rfl⟩ | ⟨v, rfl, rfl⟩ | ⟨v, rfl, rfl⟩
    | ⟨b, a, v, rfl, -, rfl⟩ | ⟨rfl, rfl⟩ := hostMove_next h
  · have hread : m.IsRead := hm.imp (fun ⟨i, hi, _⟩ => ⟨i, hi⟩) fun ⟨b, a, hb, _⟩ => ⟨b, a, hb⟩
    exact ⟨rfl, rfl, rfl, fun _ => ⟨v, rfl⟩, fun h => absurd hread h⟩
  · exact .of_not_isRead (by simp) rfl rfl rfl rfl
  · have hf := commandWrite_commandFrame hc
    exact .of_not_isRead (by simp) hf.cap hf.rom hf.pending hf.replies
  · exact .of_not_isRead (by simp) rfl rfl rfl rfl
  · exact .of_not_isRead (by simp) rfl rfl rfl rfl
  · exact .of_not_isRead (by simp) rfl rfl rfl rfl
  · exact .of_not_isRead (by simp) (by simp) (by simp) (by simp) (by simp)
  · exact .of_not_isRead (by simp) rfl rfl rfl rfl

/-- Settles O10: the move is performed on the state without it, and leaves the queue it finds. -/
theorem stepTakesOneMoveInOrder : Obligations.StepTakesOneMoveInOrder := by
  intro s t m rest hp h
  have hf := hostMove_moveFrame (step_cons hp ▸ h)
  exact ⟨hf.pending, hf.read, hf.replies⟩

/-- R23, R34: CAP and the ROM are constants of the block. -/
theorem step_constants {s t : State} (h : step s = .next t) : t.cap = s.cap ∧ t.rom = s.rom := by
  obtain ⟨-, rfl⟩ | ⟨m, rest, -, hm⟩ := step_next h
  · exact ⟨rfl, rfl⟩
  · exact ⟨(hostMove_moveFrame hm).cap, (hostMove_moveFrame hm).rom⟩

/-- Settles O22. -/
theorem capIsConstant : Obligations.CapIsConstant := fun _ _ h => (step_constants h).1

/-- Settles O25: IBUF and the epoch are as before, so its bytes are. -/
theorem commandsLeaveTheHostsOperands : Obligations.CommandsLeaveTheHostsOperands := by
  intro i s t h
  obtain ⟨hcmd, hcap, hilen, hopnd, hibuf, hrom, hepoch, hpending, hreplies⟩ := exec_commandFrame h
  have hbyte (a : Nat) : t.byte .ibuf a = s.byte .ibuf a :=
    State.byte_congr (congrArg (Memory.get? · a) hibuf) hepoch
  exact ⟨hcmd, hcap, hilen, hopnd, hrom, hbyte, hpending, hreplies, hepoch⟩

/-! ## Registers -/

/-- R20, R60: indices 9 to 15 are reserved and read 0. -/
theorem register_reserved (s : State) {i : Nat} (h9 : 9 ≤ i) (h15 : i ≤ 15) :
    s.register i = some (.word32 0) := by
  match i, h9 with
  | i + 9, _ => exact if_pos (by omega)

/-- R60: above index 15 there is no register. -/
theorem register_outside (s : State) {i : Nat} (h : 15 < i) : s.register i = none := by
  match i, h with
  | i + 9, h => exact if_neg (by omega)

theorem hostRead_of_register {s : State} {i : Nat} {v : HostValue} (h : s.register i = some v) :
    hostRead i s = .next { s with replies := v :: s.replies } := by
  rw [hostRead, h]
  rfl

/-- Settles O11. -/
theorem hostReadAnswersTheRegister : Obligations.HostReadAnswersTheRegister :=
  fun s => ⟨rfl, rfl, rfl, rfl, rfl, rfl, rfl, rfl, rfl, fun _ h9 h15 =>
    hostRead_of_register (register_reserved s h9 h15)⟩

/-- Settles O12. -/
theorem hostWriteStoresOperands : Obligations.HostWriteStoresOperands :=
  fun _ _ _ => ⟨rfl, rfl, rfl⟩

/-- R60: a write to a reserved register is ignored. -/
theorem hostWrite32_reserved (s : State) {i : Nat} (v : Word) (h9 : 9 ≤ i) (h15 : i ≤ 15) :
    hostWrite32 i v s = .next s := by
  match i, h9 with
  | i + 9, _ => exact if_pos (by omega)

/-- Settles O13. -/
theorem readOnlyWritesAreIgnored : Obligations.ReadOnlyWritesAreIgnored := by
  refine fun s i v x => ⟨?_, rfl⟩
  rintro (rfl | rfl | rfl | rfl | ⟨h9, h15⟩)
  · rfl
  · rfl
  · rfl
  · rfl
  · exact hostWrite32_reserved s v h9 h15

/-- R60: a write to an index above 15 is refused, whatever its width. -/
theorem hostWrite_outside (s : State) {i : Nat} (v : HostValue) (h : 15 < i) :
    hostWrite i v s = .refused .registerIndexOutsideInterface := by
  match i, h with
  | i + 9, h => cases v <;> exact if_neg (by omega)

/-- Settles O14: the register moves find no register, and the byte moves test the capacity. -/
theorem accessOutsideInterfaceIsRefused : Obligations.AccessOutsideInterfaceIsRefused := by
  refine fun s i a b v x => ⟨fun h => ⟨?_, hostWrite_outside s v h⟩, fun h => ⟨?_, ?_⟩⟩
  · rw [hostMove, hostRead, register_outside s h]
  · exact if_neg (Nat.not_lt.2 h)
  · exact if_neg (Nat.not_lt.2 h)

/-! ## Bytes -/

/-- Settles O15. -/
theorem hostReadByteAnswersTheByte : Obligations.HostReadByteAnswersTheByte :=
  fun _ _ _ h => if_pos h

theorem State.memory_setByte (s : State) (b b' : Buffer) (a : Nat) (v : Byte) :
    (s.setByte b a v).memory b' = if b' = b then (s.memory b).set a v else s.memory b' := by
  cases b <;> cases b' <;> rfl

/-- R60, R71: a read after a byte write. -/
theorem State.byte_setByte_same (s : State) (b : Buffer) (a : Nat) (v : Byte) :
    (s.setByte b a v).byte b a = v := by
  simp [State.byte, State.memory_setByte]

theorem State.byte_setByte_other (s : State) {b b' : Buffer} {a a' : Nat} (v : Byte)
    (h : (b', a') ≠ (b, a)) : (s.setByte b a v).byte b' a' = s.byte b' a' := by
  refine State.byte_congr ?_ (s.setByte_epoch b a v)
  rw [State.memory_setByte]
  split
  · next hb =>
    subst hb
    exact Memory.get?_set_other _ v fun ha => h (by rw [ha])
  · rfl

/-- A byte write changes the buffers alone. -/
theorem State.setByte_frame (s : State) (b : Buffer) (a : Nat) (v : Byte) :
    s.setByte b a v =
      { s with ibuf := (s.setByte b a v).ibuf, obuf := (s.setByte b a v).obuf } := by
  cases b <;> rfl

/-- Settles O16. -/
theorem hostWriteByteChangesOneByte : Obligations.HostWriteByteChangesOneByte :=
  fun s b a v h => ⟨s.setByte b a v, if_pos h, s.byte_setByte_same b a v,
    fun _ _ hne => s.byte_setByte_other v hne, s.setByte_frame b a v⟩

/-! ## Reset -/

/-- R41: a buffer in which nothing is listed holds the bytes drawn for its epoch. -/
theorem State.byte_of_memory_nil {s : State} {b : Buffer} (h : s.memory b = []) (a : Nat) :
    s.byte b a = Config.unwrittenByte s.epoch b a := by
  simp [State.byte, h]

/-- Settles O17. -/
theorem resetClearsTheRegisters : Obligations.ResetClearsTheRegisters :=
  fun s => ⟨s.resetBlock, rfl, rfl, rfl, rfl, rfl, rfl, rfl, rfl, rfl, rfl, rfl,
    fun b => State.byte_of_memory_nil (by cases b <;> rfl), rfl, rfl⟩

/-- R41: every register but CAP reads 0 right after reset. -/
theorem register_resetWith {cap : Word} {i : Nat} {v : HostValue} (hi : i ≠ 2)
    (h : (State.resetWith cap).register i = some v) : v = .word32 0 ∨ v = .word64 0 := by
  by_cases h9 : 9 ≤ i
  · by_cases h15 : i ≤ 15
    · rw [register_reserved _ h9 h15] at h
      exact .inl (Option.some.inj h).symm
    · rw [register_outside _ (Nat.lt_of_not_le h15)] at h
      exact absurd h (Option.some_ne_none v).symm
  · match i with
    | 2 => exact absurd rfl hi
    | 0 | 1 | 3 | 4 | 7 | 8 => exact .inl (Option.some.inj h).symm
    | 5 | 6 => exact .inr (Option.some.inj h).symm
    | i + 9 => omega

/-- Settles O18. -/
theorem resetStateValues : Obligations.ResetStateValues := by
  intro cap
  have hnil (b : Buffer) : (State.resetWith cap).memory b = [] := by cases b <;> rfl
  exact ⟨rfl, fun _ _ => register_resetWith, fun b => State.byte_of_memory_nil (hnil b), hnil, rfl, rfl⟩

end Sys2Proof.Machine

/-! PROOF. STATUS and the invariant (spec/10_state.md R20 to R41; spec/60_exceptions.md R263 to R269).
Every command writes STATUS in one way, its CODE and FLT by the code; the rest of the invariant follows
from what a command and a move can write. -/

namespace Sys2Proof.Machine

/-! ## How a command writes STATUS -/

/-- R22: STATUS `v'` after a command that found it `v`: FLT is added for a fault, the reserved bits
stay, and CODE is one of the seven of R263. -/
structure StatusWritten (v v' : Word) : Prop where
  flt : statusFlt v' = (statusFlt v || decide (8 ≤ (statusCode v').toNat))
  reserved : ∀ k, 4 ≤ k → k ≠ 8 → v'.getLsbD k = v.getLsbD k
  code : (statusCode v').toNat ∈ [0, 1, 2, 8, 9, 10, 11]

theorem Err.statusWritten (e : Err) (v : Word) : StatusWritten v (e.status v) where
  flt := by rw [Err.statusFlt_status, Err.statusCode_status, Bool.or_comm]
  reserved _ := e.status_getLsbD v
  code := by
    rw [Err.statusCode_status]
    cases e with
    | invalidDigit b => exact List.mem_cons_of_mem _ List.mem_cons_self
    | overflow | illegal | lenRange | wrapLen | bufSmall => decide

/-- R265: success clears CODE. -/
theorem statusSetCode_zero_written (v : Word) : StatusWritten v (statusSetCode v 0) where
  flt := by simp
  reserved _ h4 _ := statusSetCode_high v 0 h4
  code := by simp

theorem exec_statusWritten {i : Instr} {s t : State} (h : exec i s = .next t) :
    StatusWritten s.status t.status := by
  obtain ⟨e, rfl⟩ | ⟨_, rfl⟩ | ⟨_, _, rfl⟩ | ⟨_, _, _, _, _, _, rfl⟩ | ⟨_, _, _, _, rfl⟩ :=
    exec_next_cases h
  · exact e.statusWritten s.status
  all_goals exact statusSetCode_zero_written s.status

/-- Settles O24. -/
theorem commandSetsFaultBitByItsCode : Obligations.CommandSetsFaultBitByItsCode := by
  intro i s t h
  obtain ⟨hflt, hreserved, hcode⟩ := exec_statusWritten h
  exact ⟨hflt, hreserved, hcode⟩

theorem StatusWritten.flt_sticky {v v' : Word} (h : StatusWritten v v') (hv : statusFlt v = true) :
    statusFlt v' = true := by
  rw [h.flt, hv, Bool.true_or]

/-- R21, R22: a write of CMD, legal or not, ends as a command does. -/
theorem commandWrite_statusWritten {c : Word} {s t : State} (h : commandWrite c s = .next t) :
    StatusWritten s.status t.status := by
  obtain rfl | ⟨i, -, hi⟩ := commandWrite_next h
  · exact Err.statusWritten .illegal s.status
  · exact exec_statusWritten (s := { s with cmd := c }) hi

/-- R22, R60: no move but a Reset and a write of CMD touches STATUS. -/
theorem hostMove_status {m : HostMove} {s t : State} (h : hostMove m s = .next t) :
    m = .reset ∨ t.status = s.status ∨ StatusWritten s.status t.status := by
  obtain ⟨v, -, rfl⟩ | ⟨-, rfl⟩ | ⟨c, -, hc⟩ | ⟨v, -, rfl⟩ | ⟨v, -, rfl⟩ | ⟨v, -, rfl⟩
    | ⟨b, a, v, -, -, rfl⟩ | ⟨rfl, -⟩ := hostMove_next h
  · exact .inr (.inl rfl)
  · exact .inr (.inl rfl)
  · exact .inr (.inr (commandWrite_statusWritten hc))
  · exact .inr (.inl rfl)
  · exact .inr (.inl rfl)
  · exact .inr (.inl rfl)
  · exact .inr (.inl (s.setByte_status b a v))
  · exact .inl rfl

/-- Settles O23. -/
theorem faultBitIsStickyUntilReset : Obligations.FaultBitIsStickyUntilReset := by
  intro s t h hflt
  obtain ⟨-, rfl⟩ | ⟨m, rest, hp, hm⟩ := step_next h
  · exact .inl hflt
  obtain rfl | hstatus | hstatus := hostMove_status hm
  · exact .inr ⟨rest, hp⟩
  · exact .inl (hstatus ▸ hflt)
  · exact .inl (hstatus.flt_sticky hflt)

/-! ## A legal STATUS -/

/-- CODE as a digit of STATUS. -/
theorem statusCode_toNat (v : Word) : (statusCode v).toNat = v.toNat % 16 := by simp [statusCode]

/-- FLT as a digit of STATUS. -/
theorem statusFlt_eq_true_iff (v : Word) : statusFlt v = true ↔ v.toNat / 256 % 2 = 1 := by
  rw [← Bool.toNat_eq_one, statusFlt, toNat_getLsbD]
  rfl

/-- R22: the reserved bits of STATUS, as two fields and bit by bit. -/
theorem statusReserved_eq_zero_iff (v : Word) :
    (v.toNat / 16 % 16 = 0 ∧ v.toNat / 2 ^ 9 = 0) ↔ ∀ k, 4 ≤ k → k ≠ 8 → v.getLsbD k = false := by
  simp only [getLsbD_eq_false_iff]
  constructor
  · rintro ⟨hlow, hhigh⟩ k h4 h8
    by_cases h9 : 9 ≤ k
    · obtain ⟨j, rfl⟩ := Nat.exists_eq_add_of_le h9
      rw [Nat.pow_add, ← Nat.div_div_eq_div_mul, hhigh, Nat.zero_div]
    · have : k = 4 ∨ k = 5 ∨ k = 6 ∨ k = 7 := by omega
      obtain rfl | rfl | rfl | rfl := this <;> omega
  · intro h
    have h4 := h 4 (by decide) (by decide)
    have h5 := h 5 (by decide) (by decide)
    have h6 := h 6 (by decide) (by decide)
    have h7 := h 7 (by decide) (by decide)
    refine ⟨by omega, Nat.eq_of_testBit_eq fun j => ?_⟩
    have hj := h (j + 9) (by omega) (by omega)
    rw [Nat.testBit_div_two_pow, Nat.zero_testBit, Nat.testBit_eq_decide_div_mod_eq]
    simp [hj]

/-- R22: a legal STATUS by its fields. -/
theorem statusLegal_iff (v : Word) :
    StatusLegal v ↔ (∀ k, 4 ≤ k → k ≠ 8 → v.getLsbD k = false)
      ∧ (statusCode v).toNat ∈ [0, 1, 2, 8, 9, 10, 11]
      ∧ (8 ≤ (statusCode v).toNat → statusFlt v = true) := by
  rw [← statusReserved_eq_zero_iff, statusCode_toNat, statusFlt_eq_true_iff, and_assoc]

/-- R22: what a command writes to a legal STATUS is legal. -/
theorem StatusWritten.legal {v v' : Word} (h : StatusWritten v v') (hv : StatusLegal v) :
    StatusLegal v' := by
  obtain ⟨hreserved, -, -⟩ := (statusLegal_iff v).1 hv
  refine (statusLegal_iff v').2 ⟨fun k h4 h8 => ?_, h.code, fun h8 => ?_⟩
  · rw [h.reserved k h4 h8, hreserved k h4 h8]
  · rw [h.flt, decide_eq_true h8, Bool.or_true]

/-! ## The invariant -/

/-- R5, R171, R211: the digit count of an operand, sign included, is at most 20. -/
theorem IsOperand.count_le {v : SignMag} {s : State} (h : IsOperand v s) : v.count ≤ 20 := by
  obtain ⟨w, rfl | rfl⟩ := h
  · have hlen := (digitCounterCountsDecimalDigits w (operand w s)).2.2.2
    exact hlen.trans (by cases w <;> decide)
  · exact (signedOperand_count_range w s).trans (by cases w <;> decide)

theorem IsOperand.ofNat_count {v : SignMag} {s : State} (h : IsOperand v s) :
    (BitVec.ofNat 32 v.count).toNat = v.count :=
  (BitVec.toNat_ofNat ..).trans (Nat.mod_eq_of_lt (h.count_le.trans_lt (by decide)))

/-- R266: every outcome leaves ERRB a byte. -/
theorem Err.errb_lt (e : Err) {v : Word} (hv : v.toNat < 256) : (e.errb v).toNat < 256 := by
  by_cases h : e.code = 1
  · exact Err.errb_lt_of_code_eq_one h v
  · rwa [Err.errb_of_code_ne_one h]

/-- A format keeps OBUF in canonical form and inside its capacity (R69, R177). -/
theorem placeNumber_keeps_obuf {n B : Nat} {m m' : Memory} {v : SignMag} (hB : v.count ≤ B)
    (h : placeNumber n m v B = .ok m') (hwf : m.wf = true) (hin : m.within n = true) :
    m'.wf = true ∧ m'.within n = true :=
  have hk := placeNumber_kept v.count_pos hB h
  ⟨hk.wf hwf, hk.within hin⟩

/-- The part of the invariant that speaks of what a command writes beside STATUS: CNT, ERRB and OBUF. -/
structure ResultsInv (s : State) : Prop where
  cnt : s.cnt.toNat ≤ 20
  errb : s.errb.toNat < 256
  wf : s.obuf.wf = true
  within : s.obuf.within s.obufCap = true

theorem ResultsInv.raise {s : State} (h : ResultsInv s) (e : Err) : ResultsInv (s.raise e) :=
  ⟨h.cnt, e.errb_lt h.errb, h.wf, h.within⟩

theorem exec_keeps_resultsInv {i : Instr} {s t : State} (hs : ResultsInv s)
    (h : exec i s = .next t) : ResultsInv t := by
  obtain ⟨e, rfl⟩ | ⟨_, rfl⟩ | ⟨v, hv, rfl⟩ | ⟨v, m, hv, hB, -, hm, rfl⟩ | ⟨v, m, hv, hm, rfl⟩ :=
    exec_next_cases h
  · exact hs.raise e
  · exact ⟨hs.cnt, hs.errb, hs.wf, hs.within⟩
  · exact ⟨hv.ofNat_count.trans_le hv.count_le, hs.errb, hs.wf, hs.within⟩
  · obtain ⟨hwf, hin⟩ := placeNumber_keeps_obuf hB hm hs.wf hs.within
    exact ⟨hv.ofNat_count.trans_le hv.count_le, hs.errb, hwf, hin⟩
  · obtain ⟨hwf, hin⟩ := placeNumber_keeps_obuf le_rfl hm hs.wf hs.within
    exact ⟨hv.ofNat_count.trans_le hv.count_le, hs.errb, hwf, hin⟩

/-- R22, R262: after a write of CMD, CMD reads 0 only with FLT set. -/
theorem commandWrite_flt_of_zero {c : Word} {s t : State} (h : commandWrite c s = .next t)
    (hc : t.cmd = 0) : statusFlt t.status = true := by
  obtain rfl : c = 0 := (commandWrite_commandFrame h).cmd.symm.trans hc
  obtain rfl | ⟨i, hi, -⟩ := commandWrite_next h
  · exact Err.statusFlt_status .illegal s.status
  · exact absurd hi (decode_zero_ne_ok s.hasVec i)

theorem commandWrite_keeps_inv {c : Word} {s t : State} (hs : s.Inv) (h : commandWrite c s = .next t) :
    t.Inv := by
  obtain ⟨hcap, hstatus, hcnt, herrb, hiwf, howf, hiin, hoin, -, hrom⟩ := hs
  obtain ⟨-, fcap, -, -, fibuf, hrom', -, -, -⟩ := commandWrite_commandFrame h
  have hr : ResultsInv t := by
    have h0 : ResultsInv { s with cmd := c } := ⟨hcnt, herrb, howf, hoin⟩
    obtain rfl | ⟨i, -, hi⟩ := commandWrite_next h
    · exact h0.raise .illegal
    · exact exec_keeps_resultsInv h0 hi
  have hin : t.ibuf.within t.ibufCap = true := by rw [State.ibufCap, fcap, fibuf]; exact hiin
  exact ⟨fcap.symm ▸ hcap, (commandWrite_statusWritten h).legal hstatus, hr.cnt, hr.errb,
    fibuf.symm ▸ hiwf, hr.wf, hin, hr.within, fun h0 => .inl (commandWrite_flt_of_zero h h0),
    hrom'.trans hrom⟩

/-- R60: a byte write below the capacity keeps both buffers in form. -/
theorem setByte_keeps_inv {s : State} {b : Buffer} {a : Nat} (hs : s.Inv) (ha : a < s.capacity b)
    (v : Byte) : (s.setByte b a v).Inv := by
  obtain ⟨hcap, hstatus, hcnt, herrb, hiwf, howf, hiin, hoin, hcmd, hrom⟩ := hs
  cases b with
  | ibuf => exact ⟨hcap, hstatus, hcnt, herrb, Memory.wf_set hiwf a v, howf,
      Memory.within_set hiin ha v, hoin, hcmd, hrom⟩
  | obuf => exact ⟨hcap, hstatus, hcnt, herrb, hiwf, Memory.wf_set howf a v, hiin,
      Memory.within_set hoin ha v, hcmd, hrom⟩

/-- R41, R300: a state whose registers are as after reset, and in whose buffers nothing is listed,
meets the invariant when its CAP is legal and its ROM intact. -/
theorem resetBlock_inv {s : State} (hcap : CapLegal s.cap) (hrom : s.RomIntact) : s.resetBlock.Inv :=
  ⟨hcap, (by decide : StatusLegal 0), Nat.zero_le _, (by decide : (0 : Word).toNat < 256), rfl, rfl, rfl,
    rfl, fun _ => .inr ⟨rfl, rfl, rfl, rfl⟩, hrom⟩

/-- Settles O19: both are a reset block but for the epoch, which the invariant does not name. -/
theorem invariantHoldsAtReset : Obligations.InvariantHoldsAtReset :=
  have h (cap : Word) (hcap : CapLegal cap) : (State.resetWith cap).Inv :=
    resetBlock_inv (s := State.resetWith cap) hcap rfl
  ⟨h _ (by decide), h⟩

theorem hostMove_keeps_inv {m : HostMove} {s t : State} (hs : s.Inv) (h : hostMove m s = .next t) :
    t.Inv := by
  obtain ⟨v, -, rfl⟩ | ⟨-, rfl⟩ | ⟨c, -, hc⟩ | ⟨v, -, rfl⟩ | ⟨v, -, rfl⟩ | ⟨v, -, rfl⟩
    | ⟨b, a, v, -, ha, rfl⟩ | ⟨-, rfl⟩ := hostMove_next h
  · exact hs
  · exact hs
  · exact commandWrite_keeps_inv hs hc
  · exact hs
  · exact hs
  · exact hs
  · exact setByte_keeps_inv hs ha v
  · obtain ⟨hcap, -, -, -, -, -, -, -, -, hrom⟩ := hs
    exact resetBlock_inv hcap hrom

/-- Settles O20: the move is performed on the state without it, which meets the invariant. -/
theorem stepKeepsInvariant : Obligations.StepKeepsInvariant := by
  intro s t hs h
  obtain ⟨-, rfl⟩ | ⟨m, rest, -, hm⟩ := step_next h
  · exact hs
  · exact hostMove_keeps_inv (s := { s with pending := rest }) hs hm

end Sys2Proof.Machine

/-! PROOF. The ROM (spec/10_state.md R34 to R39) and the eight parse commands (spec/41_scalar_parse.md,
43_sign_adapter.md, 44_vector_parse.md): the engines give one meaning, so every statement about a vector
command is one about the scalar command; and no parse reads IBUF beyond its window. -/

namespace Sys2Proof.Machine

/-! ## The ROM -/

/-- R126: an index outside the table is a fault of the model. -/
theorem rom1_outside {w : Width} {s : State} {i : Nat} (hr : s.RomIntact) (h : tableLen w ≤ i) :
    rom1 w s i = .error .romIndex := by
  simp [rom1, List.getElem?_eq_none ((romTable_length hr w).trans_le h)]

/-- R34: the largest entry of a table fits the width, so all do. -/
theorem pow_lt_two_pow_bits {w : Width} {k : Nat} (h : k < tableLen w) : 10 ^ k < 2 ^ w.bits :=
  have hlargest : 10 ^ (tableLen w - 1) < 2 ^ w.bits := by cases w <;> decide
  (Nat.pow_le_pow_right (by decide) (by omega)).trans_lt hlargest

/-- R126: entry `i` of a table. -/
theorem rom1_eq_pow {w : Width} {s : State} {i : Nat} (hr : s.RomIntact) (h : i < tableLen w) :
    rom1 w s i = .ok (BitVec.ofNat w.bits (10 ^ (tableLen w - 1 - i))) :=
  rom1_eq_power hr (by omega)

/-- R126: what a lookup answers is an entry, and a power of ten. -/
theorem rom1_toNat {w : Width} {s : State} {i : Nat} {x : BitVec w.bits} (hr : s.RomIntact)
    (h : rom1 w s i = .ok x) : i < tableLen w ∧ x.toNat = 10 ^ (tableLen w - 1 - i) := by
  have hi : i < tableLen w := by
    by_contra hge
    rw [rom1_outside hr (Nat.le_of_not_lt hge)] at h
    cases h
  rw [rom1_eq_pow hr hi] at h
  obtain rfl := Except.ok.inj h
  exact ⟨hi, (BitVec.toNat_ofNat ..).trans (Nat.mod_eq_of_lt (pow_lt_two_pow_bits (by omega)))⟩

/-- Settles O29: the entries in closed form, and the ROM as a constant of the block. -/
theorem romHoldsPowersOfTen : Obligations.RomHoldsPowersOfTen := by
  refine ⟨fun w s i hr => ⟨fun hi => ?_, fun x y hx hy => ?_, ?_, rom1_outside hr⟩,
    fun s t h => (step_constants h).2⟩
  · exact ⟨pow_lt_two_pow_bits (by omega), rom1_eq_pow hr hi⟩
  · obtain ⟨-, hx⟩ := rom1_toNat hr hx
    obtain ⟨hi, hy⟩ := rom1_toNat hr hy
    rw [hx, hy]
    exact Nat.pow_lt_pow_right (by decide) (by omega)
  · exact rom1_eq_power hr (k := 0) (Nat.sub_add_cancel (tableLen_pos w))

/-! ## The vector commands -/

/-- R237: the engine does not matter. -/
theorem runParse_vector (sg : Bool) (pol : Policy) (w : Width) (s : State) :
    runParse .vector sg pol w s = runParse .scalar sg pol w s := by
  have hcore : Engine.vector.core w s = Engine.scalar.core w s :=
    funext fun off => funext (vectorCoreEqualsScalarCore w s off)
  simp only [runParse, hcore]

theorem runVparse_eq_scalar {s : State} (h : s.hasVec = true) (sg : Bool) (pol : Policy) (w : Width) :
    runVparse sg pol w s = runParse .scalar sg pol w s :=
  (runVparse_of_hasVec h sg pol w).trans (runParse_vector sg pol w s)

/-- Settles O40. -/
theorem vectorCommandsEqualScalarCommands : Obligations.VectorCommandsEqualScalarCommands :=
  fun w _ h =>
    have heq sg pol := congrArg settle (runVparse_eq_scalar h sg pol w)
    ⟨heq false .checked, heq false .wrapping, heq true .checked, heq true .wrapping⟩

theorem runVparse_of_not_hasVec {s : State} (h : s.hasVec = false) (sg : Bool) (pol : Policy)
    (w : Width) : runVparse sg pol w s = .ok (s.ended 0x108#32) := by
  rw [runVparse, h, ← s.raise_illegal]
  rfl

/-- R97: without the engine the words of its commands are refused for that reason. -/
theorem decode_encode_of_needsVec {i : Instr} (h : i.needsVec = true) :
    decode false (encode i) = .error .vectorEngineAbsent := by
  cases i with
  | vparseUChk w | vparseUWrap w | vparseSChk w | vparseSWrap w => cases w <;> decide
  | parseUChk w | parseUWrap w | parseSChk w | parseSWrap w | dcntU w | dcntS w | fmtU w | fmtS w
  | fmtaU w | fmtaS w => cases h

/-- Settles O7: `runVparse` tests the engine first, and the decoder last. -/
theorem vectorCommandsFaultWithoutEngine : Obligations.VectorCommandsFaultWithoutEngine := by
  intro w s h
  have hrun sg pol := congrArg settle (runVparse_of_not_hasVec h sg pol w)
  refine ⟨hrun false .checked, hrun false .wrapping, hrun true .checked, hrun true .wrapping, ?_⟩
  rw [h]
  rintro i (rfl | rfl | rfl | rfl) <;> exact decode_encode_of_needsVec rfl

/-! ## Digits, and a window beyond the buffer -/

section unsigned
variable (s : State)

theorem digitOff_false : s.digitOff false = 0 := if_neg fun h => Bool.false_ne_true h.1

theorem digitLen_false : s.digitLen false = s.inputLen := by rw [State.digitLen, digitOff_false]; rfl

theorem digitAt_false : s.digitAt false = s.byte .ibuf := by
  funext j
  rw [State.digitAt, digitOff_false, Nat.zero_add]

end unsigned

/-- R151 to R153: an unsigned parse of at most N digits, in the spec's words. -/
theorem runParse_unsigned_digits {w : Width} {s : State} (pol : Policy) (hr : s.RomIntact)
    (hL : s.inputLen ≤ s.ibufCap) (hlen : s.inputLen ≤ tableLen w)
    (hd : ∀ j < s.inputLen, IsDigit (s.byte .ibuf j)) :
    runParse .scalar false pol w s = .ok { s with
      res := BitVec.ofNat 64 (decimalSum (s.byte .ibuf) s.inputLen % 2 ^ w.bits)
      status := statusWith s.status 0 } := by
  have h := runParse_digits .scalar (sg := false) (w := w) pol hr hL
  rw [digitLen_false, digitAt_false] at h
  simpa using h hlen hd

/-- Settles O36: digits are parsed alike under both policies. -/
theorem unsignedParseOfDigitsCompletes : Obligations.UnsignedParseOfDigitsCompletes :=
  fun _ _ hr hL hlen hd =>
    have hrun pol := congrArg settle (runParse_unsigned_digits pol hr hL hlen hd)
    ⟨hrun .checked, hrun .wrapping⟩

/-- Settles O38: the scalar commands' outcomes. -/
theorem vectorUnsignedParseOfDigitsCompletes : Obligations.VectorUnsignedParseOfDigitsCompletes := by
  intro w s hr hv hL hlen hd t
  obtain ⟨hchk, hwrap, -, -⟩ := vectorCommandsEqualScalarCommands w s hv
  rw [hchk, hwrap]
  exact unsignedParseOfDigitsCompletes w s hr hL hlen hd

/-- Settles O39: the scalar commands' outcomes. -/
theorem vectorSignedParseOfDigitsCompletes : Obligations.VectorSignedParseOfDigitsCompletes := by
  intro w s hr hv hL hlen hd v t
  obtain ⟨-, -, hchk, hwrap⟩ := vectorCommandsEqualScalarCommands w s hv
  rw [hchk, hwrap]
  exact signedParseOfDigitsCompletes w s hr hL hlen hd

/-- R150: the window is tested before anything of it is read. -/
theorem runParse_lenRange {s : State} (h : s.ibufCap < s.inputLen) (eng : Engine) (sg : Bool)
    (pol : Policy) (w : Width) : runParse eng sg pol w s = .ok (s.ended 0x109#32) := by
  rw [← s.raise_lenRange]
  exact if_pos h

/-- Settles O41. -/
theorem parseBeyondTheBufferIsLenRange : Obligations.ParseBeyondTheBufferIsLenRange := by
  intro w s h
  have hrun sg pol := congrArg settle (runParse_lenRange h .scalar sg pol w)
  refine ⟨hrun false .checked, hrun false .wrapping, hrun true .checked, hrun true .wrapping, fun hv => ?_⟩
  obtain ⟨h1, h2, h3, h4⟩ := vectorCommandsEqualScalarCommands w s hv
  rw [h1, h2, h3, h4]
  exact ⟨hrun false .checked, hrun false .wrapping, hrun true .checked, hrun true .wrapping⟩

/-! ## The frame of a parse -/

/-- The eight parse commands of one width (R94, the rows with OP = 1). -/
abbrev IsParse (w : Width) (i : Instr) : Prop :=
  i = .parseUChk w ∨ i = .parseUWrap w ∨ i = .parseSChk w ∨ i = .parseSWrap w
    ∨ i = .vparseUChk w ∨ i = .vparseUWrap w ∨ i = .vparseSChk w ∨ i = .vparseSWrap w

/-- A parse command is the shared sequence under its three switches, in every state. -/
theorem IsParse.exec_eq {w : Width} {i : Instr} (h : IsParse w i) :
    (∃ sg pol, ∀ s, exec i s = settle (runParse .scalar sg pol w s))
      ∨ ∃ sg pol, ∀ s, exec i s = settle (runVparse sg pol w s) := by
  obtain rfl | rfl | rfl | rfl | rfl | rfl | rfl | rfl := h
  · exact .inl ⟨false, .checked, fun _ => rfl⟩
  · exact .inl ⟨false, .wrapping, fun _ => rfl⟩
  · exact .inl ⟨true, .checked, fun _ => rfl⟩
  · exact .inl ⟨true, .wrapping, fun _ => rfl⟩
  · exact .inr ⟨false, .checked, fun _ => rfl⟩
  · exact .inr ⟨false, .wrapping, fun _ => rfl⟩
  · exact .inr ⟨true, .checked, fun _ => rfl⟩
  · exact .inr ⟨true, .wrapping, fun _ => rfl⟩

/-- R151, R238, R266: a parse raises an outcome or stores its result. -/
theorem IsParse.exec_next {w : Width} {i : Instr} {s t : State} (hi : IsParse w i)
    (h : exec i s = .next t) :
    (∃ e, t = s.raise e) ∨ ∃ v, t = State.complete { s with res := v } := by
  have parse {eng sg pol} (hp : runParse eng sg pol w s = .ok t) :
      (∃ e, t = s.raise e) ∨ ∃ v, t = State.complete { s with res := v } := by
    obtain ⟨-, ht⟩ | ht | ⟨b, ht⟩ | ⟨v, ht⟩ := runParse_cases hp
    · exact .inl ⟨_, ht⟩
    · exact .inl ⟨_, ht⟩
    · exact .inl ⟨_, ht⟩
    · exact .inr ⟨_, ht⟩
  obtain ⟨sg, pol, he⟩ | ⟨sg, pol, he⟩ := hi.exec_eq <;> rw [he, settle_next] at h
  · exact parse h
  · obtain ⟨-, ht⟩ | ⟨-, hp⟩ := runVparse_cases h
    · exact .inl ⟨_, ht⟩
    · exact parse hp

/-- Settles O44: an outcome raised has a code other than 0, and writes ERRB with code 1 only. -/
theorem parseFrame : Obligations.ParseFrame := by
  intro w i s t hi h
  have hreserved := (exec_statusWritten h).reserved
  obtain ⟨e, rfl⟩ | ⟨v, rfl⟩ := IsParse.exec_next hi h
  · refine ⟨rfl, fun _ => rfl, fun hcode => ?_, s.byte_raise e, hreserved⟩
    rw [State.raise_status, Err.statusCode_status] at hcode
    exact Err.errb_of_code_ne_one hcode s.errb
  · exact ⟨rfl, fun hcode => absurd (statusCode_setCode ..) hcode, fun _ => rfl,
      fun b a => by cases b <;> rfl, hreserved⟩

/-! ## The window of a parse -/

/-- The state with another IBUF. -/
def State.withIbuf (s : State) (m : Memory) : State := { s with ibuf := m }

/-- With `m` as IBUF every byte of the first `L` is the same (R32). -/
def SameWindow (s : State) (m : Memory) (L : Nat) : Prop :=
  ∀ a < L, (s.withIbuf m).byte .ibuf a = s.byte .ibuf a

section window
variable {s : State} {m : Memory} {L : Nat} (h : SameWindow s m L)
include h

theorem SameWindow.ibufRead1_eq {a : Nat} (ha : a < L) :
    ibufRead1 (s.withIbuf m) a = ibufRead1 s a := by
  rw [ibufRead1, h a ha]
  rfl

theorem SameWindow.ibufRead4_eq {a : Nat} (ha : a + 4 ≤ L) :
    ibufRead4 (s.withIbuf m) a = ibufRead4 s a := by
  rw [ibufRead4, h a (by omega), h (a + 1) (by omega), h (a + 2) (by omega), h (a + 3) (by omega)]
  rfl

theorem SameWindow.parseTail_eq {w : Width} {rem idx cur : Nat} (acc : BitVec w.bits)
    (hc : cur + rem ≤ L) :
    parseTail w (s.withIbuf m) rem idx cur acc = parseTail w s rem idx cur acc := by
  induction rem generalizing idx cur acc with
  | zero => rfl
  | succ rem ih =>
    rw [parseTail, parseTail, h.ibufRead1_eq (by omega)]
    refine congrArg (ibufRead1 s cur >>= ·) (funext fun b => if_congr Iff.rfl rfl ?_)
    exact congrArg (rom1 w s idx >>= ·) (funext fun t => ih _ (by omega))

theorem SameWindow.parseGroups_eq {w : Width} {rem idx cur : Nat} (acc : BitVec w.bits)
    (hc : cur + rem ≤ L) :
    parseGroups w (s.withIbuf m) rem idx cur acc = parseGroups w s rem idx cur acc := by
  fun_induction parseGroups w s rem idx cur acc with
  | case1 rem idx cur acc ih =>
    rw [parseGroups, h.ibufRead4_eq (by omega)]
    refine congrArg (ibufRead4 s cur >>= ·) (funext fun b => ?_)
    refine if_congr Iff.rfl rfl (if_congr Iff.rfl rfl (if_congr Iff.rfl rfl (if_congr Iff.rfl rfl ?_)))
    exact congrArg (rom4 w s idx >>= ·) (funext fun t => ih b t (by omega))
  | case2 rem idx cur acc hrem =>
    rw [parseGroups]
    · exact h.parseTail_eq acc hc
    · exact hrem

theorem SameWindow.core_eq (eng : Engine) (w : Width) {off len : Nat} (hc : off + len ≤ L) :
    eng.core w (s.withIbuf m) off len = eng.core w s off len := by
  have hscalar : parseCore w (s.withIbuf m) off len = parseCore w s off len := h.parseGroups_eq 0 hc
  cases eng with
  | scalar => exact hscalar
  | vector =>
    exact (vectorCoreEqualsScalarCore ..).trans (hscalar.trans (vectorCoreEqualsScalarCore ..).symm)

end window

/-- R201: the sign is in the window. -/
theorem SameWindow.hasMinus_iff {s : State} {m : Memory} (h : SameWindow s m s.inputLen) :
    (s.withIbuf m).HasMinus ↔ s.HasMinus :=
  and_congr_right fun hL => by rw [h 0 hL]

theorem SameWindow.digitOff_eq {s : State} {m : Memory} (h : SameWindow s m s.inputLen) (sg : Bool) :
    (s.withIbuf m).digitOff sg = s.digitOff sg :=
  if_congr (and_congr_right fun _ => h.hasMinus_iff) rfl rfl

theorem parseEnd_withIbuf {n : Nat} (neg : Bool) (s : State) (m : Memory) (r : ParseResult n) :
    parseEnd neg (s.withIbuf m) r = (parseEnd neg s r).withIbuf m := by
  cases r <;> rfl

/-- R150: a parse whose window fits the buffer, as a choice on the length of its digit string. -/
theorem runParse_of_window {s : State} (hL : s.inputLen ≤ s.ibufCap) (eng : Engine) (sg : Bool)
    (pol : Policy) (w : Width) :
    runParse eng sg pol w s =
      if tooLong w (s.digitLen sg) then .ok (s.raise pol.tooLong)
      else (eng.core w s (s.digitOff sg) (s.digitLen sg)).map
        (parseEnd (decide (sg = true ∧ s.HasMinus)) s) := by
  rw [runParse, parseSign_eq sg hL]
  refine (if_neg (Nat.not_lt.2 hL)).trans (if_congr Iff.rfl rfl ?_)
  cases eng.core w s (s.digitOff sg) (s.digitLen sg) <;> rfl

/-- R32, R66: the whole run of a parse with another IBUF of the same window. -/
theorem runParse_withIbuf {s : State} {m : Memory} (h : SameWindow s m s.inputLen) (eng : Engine)
    (sg : Bool) (pol : Policy) (w : Width) :
    runParse eng sg pol w (s.withIbuf m) = (runParse eng sg pol w s).map (·.withIbuf m) := by
  by_cases hL : s.ibufCap < s.inputLen
  · rw [runParse_lenRange hL, runParse_lenRange (s := s.withIbuf m) hL]
    rfl
  have hL' : s.inputLen ≤ s.ibufCap := Nat.le_of_not_lt hL
  have hoff := h.digitOff_eq sg
  have hlen : (s.withIbuf m).digitLen sg = s.digitLen sg := by rw [State.digitLen, hoff]; rfl
  rw [runParse_of_window hL', runParse_of_window (s := s.withIbuf m) hL', hlen, hoff]
  split
  · rfl
  · rw [h.core_eq eng w (digitOff_add_digitLen s sg).le]
    simp only [h.hasMinus_iff]
    cases eng.core w s (s.digitOff sg) (s.digitLen sg) with
    | error f => rfl
    | ok r => exact congrArg Except.ok (parseEnd_withIbuf _ s m r)

theorem runVparse_withIbuf {s : State} {m : Memory} (h : SameWindow s m s.inputLen)
    (sg : Bool) (pol : Policy) (w : Width) :
    runVparse sg pol w (s.withIbuf m) = (runVparse sg pol w s).map (·.withIbuf m) := by
  cases hv : s.hasVec with
  | true =>
    rw [runVparse_of_hasVec hv, runVparse_of_hasVec (s := s.withIbuf m) hv]
    exact runParse_withIbuf h .vector sg pol w
  | false =>
    rw [runVparse_of_not_hasVec hv, runVparse_of_not_hasVec (s := s.withIbuf m) hv]
    rfl

/-- A run that answers `t`, with `f` done to what it answers. -/
theorem settle_map {x : Except Fault State} {t : State} (f : State → State) (h : settle x = .next t) :
    settle (x.map f) = .next (f t) := by
  obtain rfl := settle_next.1 h
  rfl

/-- Settles O45: both runs are the same but for the IBUF put in. -/
theorem bytesBeyondTheWindowAreIgnored : Obligations.BytesBeyondTheWindowAreIgnored := by
  intro w i s t m hi h hexec
  obtain ⟨sg, pol, he⟩ | ⟨sg, pol, he⟩ := IsParse.exec_eq hi
  · exact (he _).trans <| (congrArg settle (runParse_withIbuf h .scalar sg pol w)).trans <|
      settle_map _ (he s ▸ hexec)
  · exact (he _).trans <| (congrArg settle (runVparse_withIbuf h sg pol w)).trans <|
      settle_map _ (he s ▸ hexec)

end Sys2Proof.Machine

/-! PROOF. The digit count and formatting commands (spec/42_scalar_format.md R175 to R179;
spec/43_sign_adapter.md R205 to R211) on an operand given as sign and magnitude: where its text is put,
which outcome each window has, and, with the parse commands, that no command faults (R39, R126, R145). -/

namespace Sys2Proof.Machine

/-! ## The operand and its count -/

/-- R170, R171: the counter gives the one digit count there is. -/
theorem digits10_of_isDigitCount {c n : Nat} (hn : n < 10 ^ 20) (hc : IsDigitCount c n) :
    digits10 n = c :=
  (digits10_eq_log hn).trans (isDigitCount_iff.1 hc).symm

theorem digits10_isDigitCount {n : Nat} (hn : n < 10 ^ 20) : IsDigitCount (digits10 n) n :=
  isDigitCount_iff.2 (digits10_eq_log hn)

theorem isOperand_unsigned (w : Width) (s : State) : IsOperand (unsignedOperand w s) s := ⟨w, .inl rfl⟩

theorem isOperand_signed (w : Width) (s : State) : IsOperand (signedOperand w s) s := ⟨w, .inr rfl⟩

theorem unsignedOperand_eq (w : Width) (s : State) : unsignedOperand w s = ⟨false, s.opndNat w⟩ := by
  rw [unsignedOperand, operand_toNat]

theorem opndNat_lt (w : Width) (s : State) : s.opndNat w < 2 ^ w.bits :=
  Nat.mod_lt _ (Nat.two_pow_pos _)

theorem opndNat_lt_pow_twenty (w : Width) (s : State) : s.opndNat w < 10 ^ 20 :=
  operand_toNat w s ▸ toNat_lt_pow_twenty (operand w s)

/-- R175: the count of an unsigned operand. -/
theorem unsignedOperand_count {w : Width} {s : State} {c : Nat} (hc : IsDigitCount c (s.opndNat w)) :
    (unsignedOperand w s).count = c := by
  rw [unsignedOperand_eq]
  exact digits10_of_isDigitCount (opndNat_lt_pow_twenty w s) hc

/-! ## The digit count -/

/-- R175, R206, R265: what DCNT leaves. -/
theorem runDcnt_eq (v : SignMag) (s : State) :
    runDcnt v s = .ok { s with
      cnt := BitVec.ofNat 32 v.count, status := statusWith s.status 0 } := rfl

/-- Settles O46: CNT is the count of the operand, whose digit count is `c`. -/
theorem digitCountCompletes : Obligations.DigitCountCompletes := by
  intro w s c
  refine ⟨fun hc => ?_, fun hc => ?_⟩
  · rw [← unsignedOperand_count hc]
    exact congrArg settle (runDcnt_eq _ s)
  · rw [← signedOperand_count hc]
    exact congrArg settle (runDcnt_eq _ s)

/-- Settles O53: CODE is cleared, and the bits above it stay. -/
theorem digitCountFrame : Obligations.DigitCountFrame := by
  have frame {v : SignMag} {s t : State} (h : runDcnt v s = .ok t) :
      t = { s with status := t.status, cnt := t.cnt } ∧ statusCode t.status = 0
        ∧ (∀ k, 4 ≤ k → t.status.getLsbD k = s.status.getLsbD k) ∧ ∀ b a, t.byte b a = s.byte b a := by
    obtain rfl := Except.ok.inj h
    exact ⟨rfl, statusCode_setCode .., fun _ => statusSetCode_high _ _, fun b a => by cases b <;> rfl⟩
  rintro w i s t (rfl | rfl) h
  · exact frame (settle_next.1 h)
  · exact frame (settle_next.1 h)

/-! ## The text of a number in its window -/

/-- `m'` is `m` with the text of `v` at the offsets that end at `B - 1`: the digits, and the minus byte
of a negative number left of them (R179, R207). -/
structure NumberPlaced (B : Nat) (v : SignMag) (m m' : Memory) : Prop where
  digit : ∀ j < digits10 v.mag, m'.get? (B - 1 - j) = some (digitByte (v.mag / 10 ^ j % 10))
  minus : v.neg = true → m'.get? (B - v.count) = some asciiMinus
  other : ∀ a, a < B - v.count ∨ B ≤ a → m'.get? a = m.get? a

/-- The count is the number of digits, and one more for a sign. -/
theorem SignMag.count_of_neg {v : SignMag} (h : v.neg = true) : v.count = digits10 v.mag + 1 := by
  rw [SignMag.count, if_pos h]

/-- R179, R207: in a window that holds it, the text is placed. -/
theorem placeNumber_places {capacity B : Nat} {v : SignMag} (m : Memory) (hv : v.mag < 10 ^ 20)
    (hB : v.count ≤ B) (hcap : B ≤ capacity) :
    ∃ m', placeNumber capacity m v B = .ok m' ∧ NumberPlaced B v m m' := by
  have hle : digits10 v.mag ≤ v.count := Nat.le_add_right ..
  have hpos := v.count_pos
  obtain ⟨m₁, h₁, hw⟩ := formatCore_writes m (digits10_isDigitCount hv) (hle.trans hB) hcap
  have hplace : placeNumber capacity m v B =
      if v.neg then obufWrite1 capacity m₁ (B - v.count) asciiMinus else .ok m₁ := by
    rw [placeNumber, h₁]
    rfl
  have hother (m' : Memory) (h : placeNumber capacity m v B = .ok m') := placeNumber_other hv hB hcap h
  by_cases hneg : v.neg = true
  · have hcount := SignMag.count_of_neg hneg
    have hok : placeNumber capacity m v B = .ok (m₁.set (B - v.count) asciiMinus) := by
      rw [hplace, if_pos hneg]
      exact if_pos (by omega)
    refine ⟨_, hok, fun j hj => ?_, fun _ => Memory.get?_set_self .., hother _ hok⟩
    rw [Memory.get?_set_other _ _ (by omega), hw.digit j hj]
  · have hok : placeNumber capacity m v B = .ok m₁ := hplace.trans (if_neg hneg)
    exact ⟨_, hok, hw.digit, fun h => absurd h hneg, hother _ hok⟩

/-- R176, R207: FMT, once the window is in the buffer and holds the text. -/
theorem runFmt_of_window {v : SignMag} {s : State} (hB : v.count ≤ s.olen.toNat)
    (hcap : s.olen.toNat ≤ s.obufCap) :
    runFmt v s = (placeNumber s.obufCap s.obuf v s.olen.toNat).map fun m =>
      { s with obuf := m, cnt := BitVec.ofNat 32 v.count, status := statusWith s.status 0 } := by
  refine (if_neg (Nat.not_lt.2 hcap)).trans ((if_neg (Nat.not_lt.2 hB)).trans ?_)
  cases placeNumber s.obufCap s.obuf v s.olen.toNat <;> rfl

/-- R178, R208: FMTA as what it does with the OBUF it makes. -/
theorem runFmta_eq (v : SignMag) (s : State) :
    runFmta v s = (placeNumber s.obufCap s.obuf v v.count).map fun m =>
      { s with
        olen := BitVec.ofNat 32 v.count, obuf := m, cnt := BitVec.ofNat 32 v.count
        status := statusWith s.status 0 } := by
  unfold runFmta
  cases placeNumber s.obufCap s.obuf v v.count <;> rfl

/-- R176, R207: FMT in a window that holds the text. -/
theorem runFmt_completes {v : SignMag} {s : State} (hv : v.mag < 10 ^ 20) (hB : v.count ≤ s.olen.toNat)
    (hcap : s.olen.toNat ≤ s.obufCap) :
    ∃ m, runFmt v s = .ok { s with
        obuf := m, cnt := BitVec.ofNat 32 v.count, status := statusWith s.status 0 }
      ∧ NumberPlaced s.olen.toNat v s.obuf m := by
  obtain ⟨m, hm, hp⟩ := placeNumber_places s.obuf hv hB hcap
  exact ⟨m, by rw [runFmt_of_window hB hcap, hm]; rfl, hp⟩

/-- R178, R208: FMTA in a buffer that holds the text. -/
theorem runFmta_completes {v : SignMag} {s : State} (hv : v.mag < 10 ^ 20) (hcap : v.count ≤ s.obufCap) :
    ∃ m, runFmta v s = .ok { s with
        olen := BitVec.ofNat 32 v.count, obuf := m, cnt := BitVec.ofNat 32 v.count
        status := statusWith s.status 0 }
      ∧ NumberPlaced v.count v s.obuf m := by
  obtain ⟨m, hm, hp⟩ := placeNumber_places s.obuf hv le_rfl hcap
  exact ⟨m, by rw [runFmta_eq, hm]; rfl, hp⟩

/-- R5: a legal OBUF holds every operand's text. -/
theorem IsOperand.count_le_obufCap {v : SignMag} {s : State} (h : IsOperand v s)
    (hcap : CapLegal s.cap) : v.count ≤ s.obufCap :=
  h.count_le.trans hcap.2.2.2

/-- R179: the placed digits of an unsigned operand, in the spec's words. -/
theorem NumberPlaced.unsigned {w : Width} {s : State} {B c : Nat} {m m' : Memory}
    (h : NumberPlaced B (unsignedOperand w s) m m') (hc : IsDigitCount c (s.opndNat w)) :
    (∀ j < c, m'.get? (B - 1 - j) = some (BitVec.ofNat 8 (0x30 + s.opndNat w / 10 ^ j % 10)))
      ∧ ∀ a, a < B - c ∨ B ≤ a → m'.get? a = m.get? a := by
  obtain ⟨hdigit, -, hother⟩ := h
  rw [unsignedOperand_count hc] at hother
  rw [unsignedOperand_eq] at hdigit
  simp only [digits10_of_isDigitCount (opndNat_lt_pow_twenty w s) hc, digitByte_eq_ofNat] at hdigit
  exact ⟨hdigit, hother⟩

/-- R207: the placed text of a signed operand, in the spec's words. -/
theorem NumberPlaced.signed {w : Width} {s : State} {B c : Nat} {m m' : Memory}
    (h : NumberPlaced B (signedOperand w s) m m') (hc : IsDigitCount c (s.opndMag w)) :
    let n := c + if s.OpndNeg w then 1 else 0
    (∀ j < c, m'.get? (B - 1 - j) = some (BitVec.ofNat 8 (0x30 + s.opndMag w / 10 ^ j % 10)))
      ∧ (s.OpndNeg w → m'.get? (B - n) = some 0x2D#8)
      ∧ ∀ a, a < B - n ∨ B ≤ a → m'.get? a = m.get? a := by
  obtain ⟨hdigit, hminus, hother⟩ := h
  rw [signedOperand_count hc] at hminus hother
  rw [signedOperand_eq] at hdigit hminus
  simp only [digits10_of_isDigitCount (opndMag_lt_pow_twenty w s) hc, digitByte_eq_ofNat] at hdigit
  exact ⟨hdigit, fun hneg => hminus (decide_eq_true hneg), hother⟩

/-! ## The formatting commands -/

/-- Settles O48. -/
theorem unsignedFormatCompletes : Obligations.UnsignedFormatCompletes := by
  intro w s c hc hB hcap
  have hcount := unsignedOperand_count hc
  obtain ⟨m, hrun, hp⟩ :=
    runFmt_completes (isOperand_unsigned w s).mag_lt (hcount.trans_le hB) hcap
  rw [hcount] at hrun
  exact ⟨m, congrArg settle hrun, hp.unsigned hc⟩

/-- Settles O49. -/
theorem signedFormatCompletes : Obligations.SignedFormatCompletes := by
  intro w s c hc n hB hcap
  have hcount := signedOperand_count hc
  obtain ⟨m, hrun, hp⟩ := runFmt_completes (isOperand_signed w s).mag_lt (hcount.trans_le hB) hcap
  rw [hcount] at hrun
  exact ⟨m, congrArg settle hrun, hp.signed hc⟩

/-- Settles O50: the window is the text's own, so no offset is left of it. -/
theorem unsignedExactFormatCompletes : Obligations.UnsignedExactFormatCompletes := by
  intro w s c hlegal hc
  have hv := isOperand_unsigned w s
  obtain ⟨m, hrun, hp⟩ := runFmta_completes hv.mag_lt (hv.count_le_obufCap hlegal)
  rw [unsignedOperand_count hc] at hrun hp
  obtain ⟨hdigit, hother⟩ := hp.unsigned hc
  exact ⟨m, congrArg settle hrun, hdigit, fun a ha => hother a (.inr ha)⟩

/-- Settles O51: the minus byte stands at the start of the window. -/
theorem signedExactFormatCompletes : Obligations.SignedExactFormatCompletes := by
  intro w s c hlegal hc n
  have hv := isOperand_signed w s
  obtain ⟨m, hrun, hp⟩ := runFmta_completes hv.mag_lt (hv.count_le_obufCap hlegal)
  rw [signedOperand_count hc] at hrun hp
  obtain ⟨hdigit, hminus, hother⟩ := hp.signed hc
  rw [Nat.sub_self] at hminus
  exact ⟨m, congrArg settle hrun, hdigit, hminus, fun a ha => hother a (.inr ha)⟩

/-- R264: the window is tested against the buffer first. -/
theorem runFmt_lenRange {s : State} (v : SignMag) (h : s.obufCap < s.olen.toNat) :
    runFmt v s = .ok (s.ended 0x109#32) := by
  rw [← s.raise_lenRange]
  exact if_pos h

/-- R176, R207: then the text against the window. -/
theorem runFmt_bufSmall {v : SignMag} {s : State} (hcap : s.olen.toNat ≤ s.obufCap)
    (h : s.olen.toNat < v.count) : runFmt v s = .ok (s.ended 0x10B#32) := by
  rw [← s.raise_bufSmall]
  exact (if_neg (Nat.not_lt.2 hcap)).trans (if_pos h)

/-- Settles O52. -/
theorem formatWindowFaults : Obligations.FormatWindowFaults := by
  intro w s
  refine ⟨fun h => ⟨?_, ?_⟩, fun c hcap => ⟨fun hc h => ?_, fun hc h => ?_⟩⟩
  · exact congrArg settle (runFmt_lenRange _ h)
  · exact congrArg settle (runFmt_lenRange _ h)
  · exact congrArg settle (runFmt_bufSmall hcap (h.trans_eq (unsignedOperand_count hc).symm))
  · exact congrArg settle (runFmt_bufSmall hcap (h.trans_eq (signedOperand_count hc).symm))

/-! ## The frame of FMTA -/

/-- R174: the fixup loop starts with a write to the highest offset of its window. -/
theorem formatFixup_le_capacity {n pos v : Nat} {m m' : Memory} (h : formatFixup n pos v m = .ok m') :
    pos ≤ n := by
  cases pos with
  | zero => exact Nat.zero_le n
  | succ pos =>
    rw [formatFixup] at h
    cases hwrite : obufWrite1 n m pos (digitByte (v % 10)) with
    | error f => rw [hwrite] at h; cases h
    | ok m₁ => exact (obufWrite1_ok hwrite).1

/-- R174: so does the four-digit loop. -/
theorem formatGroups_le_capacity {n pos v : Nat} {m m' : Memory}
    (h : formatGroups n pos v m = .ok m') : pos ≤ n := by
  fun_induction formatGroups n pos v m with
  | case1 pos v m hv ih =>
    cases hwrite : obufWrite4 n m pos (extract4 v) with
    | error f => rw [hwrite] at h; cases h
    | ok m₁ => exact (obufWrite4_ok hwrite).1
  | case2 => exact formatFixup_le_capacity h
  | case3 => cases h
  | case4 => exact formatFixup_le_capacity h

/-- A text is placed only in a window inside the buffer. -/
theorem placeNumber_le_capacity {capacity B : Nat} {m m' : Memory} {v : SignMag}
    (h : placeNumber capacity m v B = .ok m') : B ≤ capacity := by
  cases hcore : formatCore capacity m v.mag B with
  | error f => rw [placeNumber, hcore] at h; cases h
  | ok m₁ => exact formatGroups_le_capacity hcore

/-- R178, R208: whatever the CAP, an FMTA that answers has placed the text. -/
theorem runFmta_places {v : SignMag} {s t : State} (hv : v.mag < 10 ^ 20) (h : runFmta v s = .ok t) :
    ∃ m, t = State.complete { s with
        olen := BitVec.ofNat 32 v.count, obuf := m, cnt := BitVec.ofNat 32 v.count }
      ∧ NumberPlaced v.count v s.obuf m := by
  obtain ⟨m, hm, rfl⟩ := runFmta_cases h
  obtain ⟨m', hm', hp⟩ := placeNumber_places s.obuf hv le_rfl (placeNumber_le_capacity hm)
  obtain rfl := Except.ok.inj (hm'.symm.trans hm)
  exact ⟨_, rfl, hp⟩

/-- Settles O55: nothing is placed at the count or above. -/
theorem exactFormatFrame : Obligations.ExactFormatFrame := by
  intro w i v s t hi h
  have ⟨hv, hrun⟩ : v.mag < 10 ^ 20 ∧ runFmta v s = .ok t := by
    obtain ⟨rfl, rfl⟩ | ⟨rfl, rfl⟩ := hi
    · exact ⟨(isOperand_unsigned w s).mag_lt, settle_next.1 h⟩
    · exact ⟨(isOperand_signed w s).mag_lt, settle_next.1 h⟩
  obtain ⟨m, rfl, hp⟩ := runFmta_places hv hrun
  exact ⟨rfl, statusCode_setCode .., fun _ => statusSetCode_high _ _, fun _ => rfl,
    fun a ha => State.byte_congr (hp.other a (.inr ha)) rfl⟩

/-! ## The upper bits of OPND -/

/-- The state with another OPND. -/
def State.withOpnd (s : State) (x : DWord) : State := { s with opnd := x }

section opnd
variable (v : SignMag) (s : State) (x : DWord)

theorem runDcnt_withOpnd : runDcnt v (s.withOpnd x) = (runDcnt v s).map (·.withOpnd x) := rfl

theorem runFmta_withOpnd : runFmta v (s.withOpnd x) = (runFmta v s).map (·.withOpnd x) := by
  rw [runFmta_eq, runFmta_eq]
  change (placeNumber s.obufCap s.obuf v v.count).map _ = _
  cases placeNumber s.obufCap s.obuf v v.count <;> rfl

theorem runFmt_withOpnd : runFmt v (s.withOpnd x) = (runFmt v s).map (·.withOpnd x) := by
  by_cases hcap : s.obufCap < s.olen.toNat
  · rw [runFmt_lenRange v hcap, runFmt_lenRange (s := s.withOpnd x) v hcap]
    rfl
  have hcap' := Nat.le_of_not_lt hcap
  by_cases hB : s.olen.toNat < v.count
  · rw [runFmt_bufSmall hcap' hB, runFmt_bufSmall (s := s.withOpnd x) hcap' hB]
    rfl
  have hB' := Nat.le_of_not_lt hB
  rw [runFmt_of_window hB' hcap', runFmt_of_window (s := s.withOpnd x) hB' hcap']
  change (placeNumber s.obufCap s.obuf v s.olen.toNat).map _ = _
  cases placeNumber s.obufCap s.obuf v s.olen.toNat <;> rfl

end opnd

/-- R26: only the low W bits are read. -/
theorem operand_withOpnd {w : Width} {s : State} {x : DWord} (h : x.toNat % 2 ^ w.bits = s.opndNat w) :
    operand w (s.withOpnd x) = operand w s :=
  BitVec.eq_of_toNat_eq <| by rw [operand_toNat, operand_toNat, ← h]; rfl

/-- Settles O56: the operand is the same, and the run carries OPND along. -/
theorem upperOperandBitsAreIgnored : Obligations.UpperOperandBitsAreIgnored := by
  intro w i s t x hi hx h
  have hop := operand_withOpnd hx
  have hu : unsignedOperand w (s.withOpnd x) = unsignedOperand w s := by
    rw [unsignedOperand, hop, unsignedOperand]
  have hs : signedOperand w (s.withOpnd x) = signedOperand w s := by
    rw [signedOperand, hop, signedOperand]
  have key {run : SignMag → State → Except Fault State} {v v' : SignMag}
      (hrun : run v (s.withOpnd x) = (run v s).map (·.withOpnd x)) (hv : v' = v)
      (h : settle (run v s) = .next t) : settle (run v' (s.withOpnd x)) = .next (t.withOpnd x) := by
    rw [hv, hrun]
    exact settle_map _ h
  obtain rfl | rfl | rfl | rfl | rfl | rfl := hi
  · exact key (runDcnt_withOpnd _ s x) hu h
  · exact key (runDcnt_withOpnd _ s x) hs h
  · exact key (runFmt_withOpnd _ s x) hu h
  · exact key (runFmt_withOpnd _ s x) hs h
  · exact key (runFmta_withOpnd _ s x) hu h
  · exact key (runFmta_withOpnd _ s x) hs h

/-! ## No command faults -/

/-- R39, R145: inside the table and the buffer both engines answer. -/
theorem Engine.core_total (eng : Engine) {w : Width} {s : State} {off len : Nat} (hr : s.RomIntact)
    (hlen : len ≤ tableLen w) (hc : off + len ≤ s.ibufCap) : ∃ r, eng.core w s off len = .ok r := by
  have hi : tableLen w - len + len ≤ tableLen w := by omega
  obtain ⟨r, htail⟩ := parseTail_total (w := w) 0 hr hi hc
  have hscalar : parseCore w s off len = .ok r := (parseGroups_eq_parseTail 0 hr hi hc).trans htail
  cases eng with
  | scalar => exact ⟨r, hscalar⟩
  | vector => exact ⟨r, (vectorCoreEqualsScalarCore ..).trans hscalar⟩

/-- R39, R145: with an intact ROM every parse answers. -/
theorem runParse_total (eng : Engine) (sg : Bool) (pol : Policy) (w : Width) {s : State}
    (hr : s.RomIntact) : ∃ t, runParse eng sg pol w s = .ok t := by
  by_cases hL : s.ibufCap < s.inputLen
  · exact ⟨_, runParse_lenRange hL eng sg pol w⟩
  have hL' := Nat.le_of_not_lt hL
  by_cases hlen : tableLen w < s.digitLen sg
  · exact ⟨_, runParse_tooLong eng pol hL' hlen⟩
  have hlen' := Nat.le_of_not_lt hlen
  obtain ⟨r, hcore⟩ := eng.core_total hr hlen' ((digitOff_add_digitLen s sg).trans_le hL')
  exact ⟨_, runParse_eq_of_core pol hL' hlen' hcore⟩

theorem runVparse_total (sg : Bool) (pol : Policy) (w : Width) {s : State} (hr : s.RomIntact) :
    ∃ t, runVparse sg pol w s = .ok t := by
  cases hv : s.hasVec with
  | true => exact runVparse_of_hasVec hv sg pol w ▸ runParse_total .vector sg pol w hr
  | false => exact ⟨_, runVparse_of_not_hasVec hv sg pol w⟩

/-- R69, R177: FMT tests its window, so it never leaves the buffer. -/
theorem runFmt_total {v : SignMag} (s : State) (hv : v.mag < 10 ^ 20) : ∃ t, runFmt v s = .ok t := by
  by_cases hcap : s.obufCap < s.olen.toNat
  · exact ⟨_, runFmt_lenRange v hcap⟩
  by_cases hB : s.olen.toNat < v.count
  · exact ⟨_, runFmt_bufSmall (Nat.le_of_not_lt hcap) hB⟩
  · obtain ⟨m, hrun, -⟩ := runFmt_completes hv (Nat.le_of_not_lt hB) (Nat.le_of_not_lt hcap)
    exact ⟨_, hrun⟩

/-- R39, R145, 93 U4: on a block of legal capacities every command answers. -/
theorem exec_total (i : Instr) {s : State} (hcap : CapLegal s.cap) (hr : s.RomIntact) :
    ∃ t, exec i s = .next t := by
  have answers {x : Except Fault State} (h : ∃ t, x = .ok t) : ∃ t, settle x = .next t := by
    obtain ⟨t, rfl⟩ := h
    exact ⟨t, rfl⟩
  obtain ⟨eng, sg, pol, w, he⟩ | ⟨sg, pol, w, he⟩ | ⟨v, -, he⟩ | ⟨v, hv, he⟩ | ⟨v, hv, he⟩ :=
    exec_cases i s <;> rw [he]
  · exact answers (runParse_total eng sg pol w hr)
  · exact answers (runVparse_total sg pol w hr)
  · exact answers ⟨_, runDcnt_eq v s⟩
  · exact answers (runFmt_total s hv.mag_lt)
  · obtain ⟨m, hrun, -⟩ := runFmta_completes hv.mag_lt (hv.count_le_obufCap hcap)
    exact answers ⟨_, hrun⟩

theorem commandWrite_total (c : Word) {s : State} (hcap : CapLegal s.cap) (hr : s.RomIntact) :
    ∃ t, commandWrite c s = .next t := by
  by_cases h : ∃ i, decode s.hasVec c = .ok i
  · obtain ⟨i, hi⟩ := h
    rw [commandWrite_of_decoded hi]
    exact exec_total (s := { s with cmd := c }) i hcap hr
  · exact ⟨_, commandWrite_of_not_decoded fun i hi => h ⟨i, hi⟩⟩

/-- R60: only the write of CMD, which runs a command, can fault. -/
theorem hostMove_fault {m : HostMove} {s : State} {f : Fault} (h : hostMove m s = .fault f) :
    ∃ c, commandWrite c s = .fault f := by
  cases m with
  | read i => simp only [hostMove, hostRead] at h; split at h <;> cases h
  | readByte b a => simp only [hostMove, hostReadByte] at h; split at h <;> cases h
  | writeByte b a v => simp only [hostMove, hostWriteByte] at h; split at h <;> cases h
  | reset => cases h
  | write i v =>
    cases v with
    | byte v => simp only [hostMove, hostWrite] at h; split at h <;> cases h
    | word64 v =>
      simp only [hostMove, hostWrite, hostWrite64] at h
      split at h
      · cases h
      · cases h
      · split at h <;> cases h
    | word32 v =>
      simp only [hostMove, hostWrite, hostWrite32] at h
      split at h
      · exact ⟨v, h⟩
      · cases h
      · cases h
      · cases h
      · cases h
      · split at h <;> cases h

/-- Settles O21: a step that faults has run a command, and every command answers. -/
theorem noStepFaultsUnderLegalCap : Obligations.NoStepFaultsUnderLegalCap := by
  intro s f hcap hr h
  cases hp : s.pending with
  | nil =>
    rw [step_nil hp] at h
    cases h
  | cons m rest =>
    rw [step_cons hp] at h
    obtain ⟨c, hc⟩ := hostMove_fault h
    obtain ⟨t, ht⟩ := commandWrite_total (s := { s with pending := rest }) c hcap hr
    rw [ht] at hc
    cases hc

end Sys2Proof.Machine

/-! PROOF. The round trips (spec/95_test_vectors.md S4, S10, S11) and the driver of `parse_unsigned`
(spec/30_encoding.md R99, R100). Both directions turn on one relation, `DigitsOf`: a string of bytes is
the decimal text of a number. Digits are the text of their decimal sum, and a number's text has that
number as its sum. -/

namespace Sys2Proof.Machine

/-! ## The decimal text of a number -/

/-- The bytes `c 0` to `c (len - 1)` are the `len` low decimal digits of `n`, the last one at the end
(R131, R179). -/
def DigitsOf (c : Nat → Byte) (len n : Nat) : Prop :=
  ∀ j < len, c (len - 1 - j) = digitByte (n / 10 ^ j % 10)

theorem digitByte_toNat {q : Nat} (hq : q < 10) : (digitByte q).toNat = 0x30 + q := by
  rw [digitByte_eq_ofNat, BitVec.toNat_ofNat]
  omega

/-- R127: the byte of a digit, from its value. -/
theorem IsDigit.eq_digitByte {b : Byte} (h : IsDigit b) : b = digitByte (b.toNat - 0x30) :=
  BitVec.eq_of_toNat_eq <| by rw [digitByte_toNat (by omega)]; omega

theorem decimalSum_congr {c c' : Nat → Byte} {len : Nat} (h : ∀ j < len, c j = c' j) :
    decimalSum c len = decimalSum c' len :=
  congrArg List.sum <| List.map_congr_left fun j hj => by rw [h j (List.mem_range.1 hj)]

section digitsOf
variable {c c' : Nat → Byte} {len n : Nat}

/-- The same relation, counted from the front. -/
theorem DigitsOf.front (h : DigitsOf c len n) {j : Nat} (hj : j < len) :
    c j = digitByte (n / 10 ^ (len - 1 - j) % 10) := by
  have hback : len - 1 - (len - 1 - j) = j := by omega
  simpa only [hback] using h (len - 1 - j) (by omega)

theorem DigitsOf.isDigit (h : DigitsOf c len n) : ∀ j < len, IsDigit (c j) := by
  intro j hj
  have hq : n / 10 ^ (len - 1 - j) % 10 < 10 := Nat.mod_lt _ (by decide)
  rw [h.front hj, IsDigit, digitByte_toNat hq]
  omega

theorem DigitsOf.unique (h : DigitsOf c len n) (h' : DigitsOf c' len n) : ∀ j < len, c j = c' j :=
  fun _ hj => (h.front hj).trans (h'.front hj).symm

/-- Without its first digit a text is that of the same number with one digit less. -/
theorem DigitsOf.tail (h : DigitsOf c (len + 1) n) : DigitsOf (fun j => c (j + 1)) len n := by
  intro j hj
  have hoff : len - 1 - j + 1 = len + 1 - 1 - j := by omega
  simpa only [hoff] using h j (by omega)

/-- R144: the sum of a number's digits is the number. -/
theorem DigitsOf.decimalSum_eq (h : DigitsOf c len n) : decimalSum c len = n % 10 ^ len := by
  induction len generalizing c with
  | zero => simp [Nat.mod_one]
  | succ len ih =>
    have hq : n / 10 ^ len % 10 < 10 := Nat.mod_lt _ (by decide)
    have hfirst : (c 0).toNat - 0x30 = n / 10 ^ len % 10 := by
      rw [h.front (Nat.succ_pos len), Nat.add_sub_cancel, Nat.sub_zero, digitByte_toNat hq,
        Nat.add_sub_cancel_left]
    rw [decimalSum_succ, ih h.tail, hfirst, Nat.pow_succ, Nat.mod_mul, Nat.mul_comm, Nat.add_comm]

theorem decimalSum_lt (h : ∀ j < len, IsDigit (c j)) : decimalSum c len < 10 ^ len := by
  induction len generalizing c with
  | zero => simp
  | succ len ih =>
    have hrest := ih (c := fun j => c (j + 1)) fun j hj => h (j + 1) (by omega)
    have hfirst : (c 0).toNat - 0x30 ≤ 9 := by have := h 0 (by omega); omega
    have hmul := Nat.mul_le_mul_right (10 ^ len) hfirst
    rw [decimalSum_succ, Nat.pow_succ]
    omega

/-- R144: digits are the text of their decimal sum. -/
theorem digitsOf_decimalSum (h : ∀ j < len, IsDigit (c j)) : DigitsOf c len (decimalSum c len) := by
  induction len generalizing c with
  | zero => exact fun j hj => absurd hj (Nat.not_lt_zero j)
  | succ len ih =>
    have hdigits : ∀ j < len, IsDigit (c (j + 1)) := fun j hj => h (j + 1) (by omega)
    have hrest := decimalSum_lt (c := fun j => c (j + 1)) hdigits
    intro j hj
    rw [decimalSum_succ]
    obtain hlt | rfl := Nat.lt_succ_iff_lt_or_eq.1 hj
    · obtain ⟨k, rfl⟩ := Nat.exists_eq_add_of_lt hlt
      have hoff : j + k + 1 + 1 - 1 - j = j + k + 1 - 1 - j + 1 := by omega
      have hpow (a : Nat) : a * 10 ^ (j + k + 1) = 10 ^ j * (10 * (10 ^ k * a)) := by ring
      rw [hoff, hpow, Nat.mul_add_div (by positivity), Nat.mul_add_mod]
      exact ih hdigits j hlt
    · have h0 : IsDigit (c 0) := h 0 (Nat.succ_pos j)
      rw [Nat.add_sub_cancel, Nat.sub_self, Nat.mul_comm, Nat.mul_add_div (by positivity),
        Nat.div_eq_of_lt hrest, Nat.add_zero, Nat.mod_eq_of_lt (by omega)]
      exact h0.eq_digitByte

/-- Leading zeros add nothing (95 S10). -/
theorem decimalSum_leadingZeros {k : Nat} (hk : k ≤ len) (h : ∀ j < k, c j = 0x30#8) :
    decimalSum c len = decimalSum (fun j => c (k + j)) (len - k) := by
  induction k generalizing c len with
  | zero => simp
  | succ k ih =>
    obtain ⟨len, rfl⟩ := Nat.exists_eq_add_of_le' (Nat.one_le_of_lt hk)
    have hshift (j : Nat) : k + j + 1 = k + 1 + j := by omega
    rw [decimalSum_succ, h 0 (by omega), ih (by omega) fun j hj => h (j + 1) (by omega)]
    simp [hshift]

/-- A text without a leading zero is as long as its number (R171). -/
theorem isDigitCount_decimalSum (hpos : 1 ≤ len) (h : ∀ j < len, IsDigit (c j))
    (hfirst : len = 1 ∨ c 0 ≠ 0x30#8) : IsDigitCount len (decimalSum c len) := by
  refine ⟨hpos, decimalSum_lt h, hfirst.imp_right fun hne => ?_⟩
  obtain ⟨len, rfl⟩ := Nat.exists_eq_add_of_le' hpos
  have h0 := h 0 (by omega)
  have hval : 1 ≤ (c 0).toNat - 0x30 := by
    have : (c 0).toNat ≠ 0x30 := fun heq => hne (BitVec.eq_of_toNat_eq heq)
    omega
  rw [decimalSum_succ]
  exact (Nat.le_mul_of_pos_left _ hval).trans (Nat.le_add_right ..)

end digitsOf

/-- Digits without their leading zeros are the text of the same value, and as long as it (95 S10). -/
theorem LeadingZeros.stripped {c : Nat → Byte} {len k : Nat} (hk : LeadingZeros c len k)
    (h : ∀ j < len, IsDigit (c j)) :
    DigitsOf (fun j => c (k + j)) (len - k) (decimalSum c len)
      ∧ IsDigitCount (len - k) (decimalSum c len) := by
  obtain ⟨hlt, hzero, hfirst⟩ := hk
  have hdigits : ∀ j < len - k, IsDigit (c (k + j)) := fun j hj => h (k + j) (by omega)
  rw [decimalSum_leadingZeros hlt.le hzero]
  exact ⟨digitsOf_decimalSum hdigits,
    isDigitCount_decimalSum (by omega) hdigits (hfirst.imp (by omega) id)⟩

/-! ## Format, then parse -/

/-- R41, R71: a listed byte is the one the buffer holds. -/
theorem State.byte_of_get? {s : State} {b : Buffer} {a : Nat} {v : Byte}
    (h : (s.memory b).get? a = some v) : s.byte b a = v := by
  rw [State.byte, h]

/-- R5, R171: the text of a W-bit number has at most N digits. -/
theorem digits10_le_tableLen {w : Width} {n : Nat} (h : n < 2 ^ w.bits) : digits10 n ≤ tableLen w := by
  have hlen := (digitCounterCountsDecimalDigits w (BitVec.ofNat w.bits n)).2.2.2
  rwa [BitVec.toNat_ofNat, Nat.mod_eq_of_lt h] at hlen

/-- A number's whole text has it as its sum (R144, R171). -/
theorem DigitsOf.decimalSum_digits10 {c : Nat → Byte} {n : Nat} (hn : n < 10 ^ 20)
    (h : DigitsOf c (digits10 n) n) : decimalSum c (digits10 n) = n :=
  h.decimalSum_eq.trans (Nat.mod_eq_of_lt (digits10_isDigitCount hn).2.1)

/-- `u` has as its input the text of `v`: the minus byte of a negative number, and the digits (R208). -/
structure TextIn (v : SignMag) (u : State) : Prop where
  len : u.inputLen = v.count
  digits : DigitsOf (fun j => u.byte .ibuf ((if v.neg then 1 else 0) + j)) (digits10 v.mag) v.mag
  minus : v.neg = true → u.byte .ibuf 0 = asciiMinus

/-- R178, R208: what FMTA left in OBUF, copied to IBUF with its length, is the operand's text. -/
theorem textIn_of_runFmta {v : SignMag} {s t u : State} (hv : IsOperand v s) (h : runFmta v s = .ok t)
    (hlen : u.ilen = t.olen) (hbytes : ∀ j < u.inputLen, u.byte .ibuf j = t.byte .obuf j) :
    TextIn v u := by
  obtain ⟨m, rfl, hp⟩ := runFmta_places hv.mag_lt h
  have hL : u.inputLen = v.count := (congrArg BitVec.toNat hlen).trans hv.ofNat_count
  have hread {j : Nat} {b : Byte} (hj : j < v.count) (hm : m.get? j = some b) :
      u.byte .ibuf j = b :=
    (hbytes j (hL ▸ hj)).trans (State.byte_of_get? hm)
  have hcount : v.count = digits10 v.mag + if v.neg then 1 else 0 := rfl
  refine ⟨hL, fun j hj => ?_, fun hneg => ?_⟩
  · have hoff : (if v.neg then 1 else 0) + (digits10 v.mag - 1 - j) = v.count - 1 - j := by omega
    change u.byte .ibuf (_ + _) = _
    rw [hoff]
    exact hread (by omega) (hp.digit j hj)
  · exact hread v.count_pos (by simpa using hp.minus hneg)

/-- R201: a sign is skipped exactly in the text of a negative number. -/
theorem TextIn.hasMinus_iff {v : SignMag} {u : State} (h : TextIn v u) :
    u.HasMinus ↔ v.neg = true := by
  have hpos : 1 ≤ u.inputLen := h.len ▸ v.count_pos
  refine ⟨fun hminus => ?_, fun hneg => ⟨hpos, h.minus hneg⟩⟩
  by_contra hneg
  have hcount : v.count = digits10 v.mag := by simp [SignMag.count, hneg]
  have h0 : IsDigit (u.byte .ibuf 0) := by
    simpa [hneg] using h.digits.isDigit 0 (by rw [← hcount]; exact v.count_pos)
  rw [hminus.2] at h0
  exact absurd h0 (by decide)

/-- R201: what a signed parse sees of the text are its digits. -/
theorem TextIn.signed {v : SignMag} {u : State} (h : TextIn v u) :
    u.digitLen true = digits10 v.mag ∧ DigitsOf (u.digitAt true) (digits10 v.mag) v.mag := by
  have hoff : u.digitOff true = if v.neg then 1 else 0 :=
    if_congr ((and_iff_right rfl).trans h.hasMinus_iff) rfl rfl
  refine ⟨?_, ?_⟩
  · rw [State.digitLen, hoff, h.len, SignMag.count, Nat.add_sub_cancel]
  · have hat : u.digitAt true = fun j => u.byte .ibuf ((if v.neg then 1 else 0) + j) := by
      funext j
      rw [State.digitAt, hoff]
    exact hat ▸ h.digits

/-- Settles O57: the digits of the operand are its text, and their sum is the operand. -/
theorem unsignedFormatThenParse : Obligations.UnsignedFormatThenParse := by
  intro w s t u h hr hlen hL hbytes
  have htext := textIn_of_runFmta (isOperand_unsigned w s) (settle_next.1 h) hlen hbytes
  rw [unsignedOperand_eq] at htext
  have hn := opndNat_lt w s
  have hinput : u.inputLen = digits10 (s.opndNat w) := htext.len
  have hdigits : DigitsOf (u.byte .ibuf) (digits10 (s.opndNat w)) (s.opndNat w) := by
    simpa using htext.digits
  obtain ⟨hparse, -⟩ := unsignedParseOfDigitsCompletes w u hr hL
    (hinput.trans_le (digits10_le_tableLen hn)) (hinput ▸ hdigits.isDigit)
  rw [hparse, hinput, hdigits.decimalSum_digits10 (opndNat_lt_pow_twenty w s), Nat.mod_eq_of_lt hn]

/-- R205, R202: the sign applied to the magnitude gives the operand back. -/
theorem opndNat_eq_signed_mag (w : Width) (s : State) :
    (if s.OpndNeg w then (2 ^ w.bits - s.opndMag w) % 2 ^ w.bits else s.opndMag w) = s.opndNat w := by
  have hn := opndNat_lt w s
  by_cases hneg : s.OpndNeg w
  · rw [if_pos hneg, State.opndMag, if_pos hneg, Nat.sub_sub_self hn.le, Nat.mod_eq_of_lt hn]
  · rw [if_neg hneg, State.opndMag, if_neg hneg]

theorem two_pow_bits_eq (w : Width) : 2 ^ w.bits = 2 * 2 ^ (w.bits - 1) :=
  (mul_pow_sub_one (bits_pos w).ne' 2).symm

theorem opndMag_lt (w : Width) (s : State) : s.opndMag w < 2 ^ w.bits := by
  have hle := opndMag_le w s
  have hpow := two_pow_bits_eq w
  have hpos := Nat.two_pow_pos (w.bits - 1)
  omega

/-- Settles O58: the digits of the magnitude are behind the sign, and their sum is the magnitude. -/
theorem signedFormatThenParse : Obligations.SignedFormatThenParse := by
  intro w s t u h hr hlen hL hbytes
  have htext := textIn_of_runFmta (isOperand_signed w s) (settle_next.1 h) hlen hbytes
  rw [signedOperand_eq] at htext
  have hn := opndMag_lt w s
  obtain ⟨hinput, hdigits⟩ := htext.signed
  have hminus : u.HasMinus ↔ s.OpndNeg w := htext.hasMinus_iff.trans decide_eq_true_iff
  obtain ⟨hparse, -⟩ := signedParseOfDigitsCompletes w u hr hL
    (hinput.trans_le (digits10_le_tableLen hn)) (hinput ▸ hdigits.isDigit)
  rw [hparse, hinput, hdigits.decimalSum_digits10 (opndMag_lt_pow_twenty w s), Nat.mod_eq_of_lt hn,
    if_congr hminus rfl rfl, opndNat_eq_signed_mag]

/-! ## Parse, then format -/

/-- R150, R263: a parse that ends with CODE 0 had its window in the buffer. -/
theorem inputLen_le_of_code_zero {eng : Engine} {sg : Bool} {pol : Policy} {w : Width} {s t : State}
    (h : runParse eng sg pol w s = .ok t) (hcode : statusCode t.status = 0) :
    s.inputLen ≤ s.ibufCap := by
  by_contra hL
  rw [runParse_lenRange (Nat.lt_of_not_le hL), ← s.raise_lenRange] at h
  obtain rfl := Except.ok.inj h
  rw [State.raise_status, Err.statusCode_status] at hcode
  exact Err.code_ne_zero _ hcode

/-- R26, R29: a W-bit result put into OPND is the operand. -/
theorem opndNat_of_opnd {w : Width} {u : State} {n : Nat} (h : u.opnd = BitVec.ofNat 64 n)
    (hn : n < 2 ^ w.bits) : u.opndNat w = n := by
  have h64 : 2 ^ w.bits ≤ 2 ^ 64 := by cases w <;> decide
  rw [State.opndNat, h, BitVec.toNat_ofNat, Nat.mod_eq_of_lt (hn.trans_le h64), Nat.mod_eq_of_lt hn]

/-- S10, unsigned: what FMTA.U leaves for a parsed digit string is the string without its zeros. -/
theorem parseU_then_fmtaU {w : Width} {s t u : State} {k : Nat} (hr : s.RomIntact)
    (hu : u.opnd = t.res) (hcap : CapLegal u.cap) (hlen : s.inputLen ≤ tableLen w)
    (hd : ∀ j < s.inputLen, IsDigit (s.byte .ibuf j)) (hk : LeadingZeros (s.byte .ibuf) s.inputLen k)
    (hv : decimalSum (s.byte .ibuf) s.inputLen < 2 ^ w.bits) (h : exec (.parseUChk w) s = .next t)
    (hcode : statusCode t.status = 0) :
    ∃ x, exec (.fmtaU w) u = .next x ∧ x.olen = BitVec.ofNat 32 (s.inputLen - k)
      ∧ ∀ j < s.inputLen - k, x.byte .obuf j = s.byte .ibuf (k + j) := by
  have hL := inputLen_le_of_code_zero (settle_next.1 h) hcode
  obtain ⟨hparse, -⟩ := unsignedParseOfDigitsCompletes w s hr hL hlen hd
  obtain rfl := Host.Outcome.next.inj (hparse.symm.trans h)
  rw [Nat.mod_eq_of_lt hv] at hu
  have hop := opndNat_of_opnd hu hv
  obtain ⟨htext, hcount⟩ := hk.stripped hd
  obtain ⟨m, hexec, hdigit, -⟩ := unsignedExactFormatCompletes w u _ hcap (hop ▸ hcount)
  refine ⟨_, hexec, rfl, DigitsOf.unique (fun j hj => ?_) htext⟩
  rw [digitByte_eq_ofNat, ← hop]
  exact State.byte_of_get? (hdigit j hj)

/-- R202, R205: the operand that a parsed sign and magnitude make, read back. -/
theorem opndNeg_iff_and_opndMag_eq {w : Width} {u : State} {v : Nat} {neg : Prop} [Decidable neg]
    (hu : u.opndNat w = if neg then (2 ^ w.bits - v) % 2 ^ w.bits else v)
    (hv : v < 2 ^ (w.bits - 1) ∨ (neg ∧ v = 2 ^ (w.bits - 1))) :
    (u.OpndNeg w ↔ neg ∧ v ≠ 0) ∧ u.opndMag w = v := by
  have hpow := two_pow_bits_eq w
  have hpos := Nat.two_pow_pos (w.bits - 1)
  by_cases hn : neg ∧ v ≠ 0
  · have hnat : u.opndNat w = 2 ^ w.bits - v := by
      rw [hu, if_pos hn.1, Nat.mod_eq_of_lt (by omega)]
    have hneg : u.OpndNeg w := by rw [State.OpndNeg, hnat]; omega
    exact ⟨iff_of_true hneg hn, by rw [State.opndMag, if_pos hneg, hnat]; omega⟩
  · have hlt : v < 2 ^ (w.bits - 1) := hv.elim id fun h => by
      have h0 : v = 0 := not_not.1 fun h0 => hn ⟨h.1, h0⟩
      omega
    have hnat : u.opndNat w = v := by
      rw [hu]
      split
      · next hneg =>
        obtain rfl : v = 0 := not_not.1 fun h0 => hn ⟨hneg, h0⟩
        simp
      · rfl
    have hneg : ¬ u.OpndNeg w := by rw [State.OpndNeg, hnat]; omega
    exact ⟨iff_of_false hneg hn, by rw [State.opndMag, if_neg hneg, hnat]⟩

/-- S10, signed. -/
theorem parseS_then_fmtaS {w : Width} {s t u : State} {k : Nat} (hr : s.RomIntact)
    (hu : u.opnd = t.res) (hcap : CapLegal u.cap) (hlen : s.digitLen true ≤ tableLen w)
    (hd : ∀ j < s.digitLen true, IsDigit (s.digitAt true j))
    (hk : LeadingZeros (s.digitAt true) (s.digitLen true) k) :
    let v := decimalSum (s.digitAt true) (s.digitLen true)
    let sign := if s.HasMinus ∧ v ≠ 0 then 1 else 0
    v < 2 ^ (w.bits - 1) ∨ (s.HasMinus ∧ v = 2 ^ (w.bits - 1)) →
    exec (.parseSChk w) s = .next t → statusCode t.status = 0 →
    ∃ x, exec (.fmtaS w) u = .next x
      ∧ x.olen = BitVec.ofNat 32 (s.digitLen true - k + sign)
      ∧ (sign = 1 → x.byte .obuf 0 = 0x2D#8)
      ∧ ∀ j < s.digitLen true - k, x.byte .obuf (sign + j) = s.digitAt true (k + j) := by
  intro v sign hv h hcode
  have hL := inputLen_le_of_code_zero (settle_next.1 h) hcode
  have hlt : v < 2 ^ w.bits := by
    have hpow := two_pow_bits_eq w
    have hpos := Nat.two_pow_pos (w.bits - 1)
    omega
  obtain ⟨hparse, -⟩ := signedParseOfDigitsCompletes w s hr hL hlen hd
  obtain rfl := Host.Outcome.next.inj (hparse.symm.trans h)
  have hop := opndNat_of_opnd (w := w) hu (by
    split
    · exact Nat.mod_lt _ (Nat.two_pow_pos _)
    · exact Nat.mod_lt _ (Nat.two_pow_pos _))
  rw [Nat.mod_eq_of_lt hlt] at hop
  obtain ⟨hneg, hmag⟩ := opndNeg_iff_and_opndMag_eq hop hv
  obtain ⟨htext, hcount⟩ := hk.stripped hd
  have hsign : (if u.OpndNeg w then 1 else 0) = sign := if_congr hneg rfl rfl
  obtain ⟨m, hexec, hdigit, hminus, -⟩ := signedExactFormatCompletes w u
    (s.digitLen true - k) hcap (by rw [hmag]; exact hcount)
  rw [hsign] at hexec hdigit
  refine ⟨_, hexec, rfl, fun h1 => ?_, DigitsOf.unique (fun j hj => ?_) htext⟩
  · have hs : s.HasMinus ∧ v ≠ 0 := by
      by_contra hne
      exact absurd ((if_neg hne).symm.trans h1) (by decide)
    exact State.byte_of_get? (hminus (hneg.2 hs))
  · have hoff : sign + (s.digitLen true - k - 1 - j) = s.digitLen true - k + sign - 1 - j := by omega
    have hj' := hdigit j hj
    rw [hmag, ← digitByte_eq_ofNat, ← hoff] at hj'
    exact State.byte_of_get? hj'

/-- Settles O59. -/
theorem parseThenFormatIsTheText : Obligations.ParseThenFormatIsTheText :=
  fun _ _ _ _ _ hr hu hcap => ⟨parseU_then_fmtaU hr hu hcap, parseS_then_fmtaS hr hu hcap⟩

end Sys2Proof.Machine

/-! PROOF. The driver of `parse_unsigned` (spec/30_encoding.md R99, R100): its script puts the input
into IBUF and its length into ILEN, so the command it ends with parses the input. -/

namespace Sys2Proof.Machine

/-! ## Scripts -/

theorem playMoves_cons {m : HostMove} {s t : State} (rest : List HostMove) (h : hostMove m s = .next t) :
    playMoves (m :: rest) s = playMoves rest t := by
  rw [playMoves, h]

/-- R99: a script played after one that has answered. -/
theorem playMoves_append {script : List HostMove} {s t : State} (rest : List HostMove)
    (h : playMoves script s = .next t) : playMoves (script ++ rest) s = playMoves rest t := by
  induction script generalizing s with
  | nil => rw [Host.Outcome.next.inj h, List.nil_append]
  | cons m script ih =>
    rw [playMoves] at h
    split at h
    · next u hu => exact (playMoves_cons _ hu).trans (ih h)
    · cases h
    · cases h

/-- R60: a byte write to IBUF inside its capacity. -/
theorem hostMove_writeByte_ibuf {s : State} {a : Nat} (v : Byte) (h : a < s.ibufCap) :
    hostMove (.writeByte .ibuf a v) s = .next (s.withIbuf (s.ibuf.set a v)) :=
  if_pos h

/-- R99, R100: bytes written from offset `a` on stand there, and those below `a` are as before. -/
theorem playMoves_writeBytesFrom {s : State} {a : Nat} (bytes : List Byte)
    (h : a + bytes.length ≤ s.ibufCap) :
    ∃ m, playMoves (writeBytesFrom .ibuf a bytes) s = .next (s.withIbuf m)
      ∧ (∀ j < bytes.length, m.get? (a + j) = some (bytes.getD j 0))
      ∧ ∀ x < a, m.get? x = s.ibuf.get? x := by
  induction bytes generalizing s a with
  | nil => exact ⟨s.ibuf, rfl, fun j hj => absurd hj (Nat.not_lt_zero j), fun _ _ => rfl⟩
  | cons v bytes ih =>
    rw [List.length_cons] at h
    obtain ⟨m, hplay, hbytes, hbelow⟩ := ih (s := s.withIbuf (s.ibuf.set a v)) (a := a + 1)
      (h := (by omega : a + 1 + bytes.length ≤ s.ibufCap))
    refine ⟨m, (playMoves_cons _ (hostMove_writeByte_ibuf v (by omega))).trans hplay, ?_, ?_⟩
    · intro j hj
      cases j with
      | zero => exact (hbelow a (Nat.lt_succ_self a)).trans (Memory.get?_set_self ..)
      | succ j =>
        have hoff : a + (j + 1) = a + 1 + j := by omega
        rw [hoff]
        exact hbytes j (Nat.lt_of_succ_lt_succ hj)
    · intro x hx
      exact (hbelow x (by omega)).trans (Memory.get?_set_other _ v hx.ne)

/-- `u` is the block of `s` with `bytes` as its input (R100). -/
structure Presented (bytes : List Byte) (s u : State) : Prop where
  cap : u.cap = s.cap
  rom : u.rom = s.rom
  ilen : u.ilen = BitVec.ofNat 32 bytes.length
  byte : ∀ j < bytes.length, u.byte .ibuf j = bytes.getD j 0

/-- R100: `ibuf "text"` on an input that fits the buffer. -/
theorem playMoves_scriptIbuf {s : State} (bytes : List Byte) (h : bytes.length ≤ s.ibufCap) :
    ∃ u, playMoves (scriptIbuf bytes) s = .next u ∧ Presented bytes s u := by
  obtain ⟨m, hplay, hbytes, -⟩ := playMoves_writeBytesFrom (s := s) (a := 0) bytes (by omega)
  simp only [Nat.zero_add] at hbytes
  exact ⟨{ s with ibuf := m, ilen := BitVec.ofNat 32 bytes.length }, playMoves_append _ hplay,
    rfl, rfl, rfl, fun j hj => State.byte_of_get? (hbytes j hj)⟩

/-- R99: `cmd` of a command that the block offers stores its word and runs it. -/
theorem hostMove_scriptCmd {i : Instr} (s : State) (h : i.wellFormed s.hasVec = true) :
    hostMove (scriptCmd i) s = exec i { s with cmd := encode i } :=
  commandWrite_of_decoded (decode_encode h)

/-- R100: the script of an input and a command runs the command on that input. -/
theorem playMoves_scriptIbuf_scriptCmd {s : State} {bytes : List Byte} {i : Instr}
    (h : bytes.length ≤ s.ibufCap) (hwf : i.wellFormed s.hasVec = true) :
    ∃ u, Presented bytes s u
      ∧ ∀ t, exec i u = .next t → playMoves (scriptIbuf bytes ++ [scriptCmd i]) s = .next t := by
  obtain ⟨u, hplay, hcap, hrom, hilen, hbyte⟩ := playMoves_scriptIbuf bytes h
  have hwf' : i.wellFormed u.hasVec = true := by rwa [State.hasVec, hcap]
  exact ⟨{ u with cmd := encode i }, ⟨hcap, hrom, hilen, hbyte⟩, fun t ht =>
    (playMoves_append _ hplay).trans (playMoves_cons [] ((hostMove_scriptCmd u hwf').trans ht))⟩

theorem playThen_of_next {α : Type} {script : List HostMove} {s t : State} (answer : State → α)
    (h : playMoves script s = .next t) : playThen script answer s = .next (t, answer t) := by
  rw [playThen, h]

/-! ## The driver -/

/-- R100: CODE 0 hands back the low W bits of RES. -/
theorem readParse_of_completed {w : Width} {t : State} {n : Nat} (hcode : statusCode t.status = 0)
    (hres : t.res = BitVec.ofNat 64 (n % 2 ^ w.bits)) :
    readParse w t = .ok (BitVec.ofNat w.bits n) := by
  have hn : n % 2 ^ w.bits < 2 ^ w.bits := Nat.mod_lt _ (Nat.two_pow_pos _)
  have h64 : 2 ^ w.bits ≤ 2 ^ 64 := by cases w <;> decide
  have hval : t.res.setWidth w.bits = BitVec.ofNat w.bits n := BitVec.eq_of_toNat_eq <| by
    rw [BitVec.toNat_setWidth, hres, BitVec.toNat_ofNat, BitVec.toNat_ofNat,
      Nat.mod_eq_of_lt (hn.trans_le h64), Nat.mod_mod]
  rw [readParse, hcode, hval]
  rfl

/-- R5: a legal IBUF holds every digit string the tables have digits for. -/
theorem tableLen_le_ibufCap {s : State} (h : CapLegal s.cap) (w : Width) : tableLen w ≤ s.ibufCap := by
  obtain ⟨-, -, hibuf, -⟩ := h
  exact (show tableLen w ≤ 21 by cases w <;> decide).trans hibuf

/-- R100: the whole sequence on at most N digits. -/
theorem driveParseChecked_digits {w : Width} {s : State} {bytes : List Byte} (hcap : CapLegal s.cap)
    (hr : s.RomIntact) (hlen : bytes.length ≤ tableLen w) (hd : ∀ b ∈ bytes, IsDigit b) :
    ∃ t, driveParseChecked .scalar false bytes w s =
      .next (t, .ok (BitVec.ofNat w.bits (decimalSum (fun j => bytes.getD j 0) bytes.length))) := by
  have hfits := hlen.trans (tableLen_le_ibufCap hcap w)
  obtain ⟨u, ⟨hucap, hurom, hilen, hbytes⟩, hplay⟩ :=
    playMoves_scriptIbuf_scriptCmd (i := .parseUChk w) hfits (Bool.or_true _)
  have hL : u.inputLen = bytes.length := by
    rw [State.inputLen, hilen, BitVec.toNat_ofNat]
    exact Nat.mod_eq_of_lt (hlen.trans_lt (by cases w <;> decide))
  have hdigits : ∀ j < u.inputLen, IsDigit (u.byte .ibuf j) := fun j hj => by
    rw [hL] at hj
    rw [hbytes j hj, List.getD_eq_getElem _ _ hj]
    exact hd _ (List.getElem_mem hj)
  have hwindow : u.inputLen ≤ u.ibufCap := by
    rw [hL, State.ibufCap, hucap]
    exact hfits
  obtain ⟨hparse, -⟩ :=
    unsignedParseOfDigitsCompletes w u (hurom.trans hr) hwindow (hL.trans_le hlen) hdigits
  rw [hL, decimalSum_congr hbytes] at hparse
  have hread := readParse_of_completed (statusCode_setCode u.status 0) (w := w) (t := { u with
    res := BitVec.ofNat 64 (decimalSum (fun j => bytes.getD j 0) bytes.length % 2 ^ w.bits)
    status := statusWith u.status 0 }) rfl
  rw [← hread]
  exact ⟨_, (if_neg (Nat.not_lt.2 hfits)).trans (playThen_of_next (readParse w) (hplay _ hparse))⟩

/-- Settles O60. -/
theorem driverParsesDigits : Obligations.DriverParsesDigits :=
  fun _ _ _ => ⟨driveParseChecked_digits, fun h => if_pos h⟩

end Sys2Proof.Machine
